-- ==== Sys2Proof/Word.lean ====
section
/-! DEFINITION. The word types of the block. Every register, address and length is 32 bits wide (`XLEN`, 00_scope.md
R5); a byte is 8 bits (R7). All quantities are unsigned. -/

namespace Sys2Proof

/-- A register value, address, length or count: `XLEN` = 32 bits (00_scope.md R5). -/
abbrev Word := BitVec 32

/-- A byte, an integer 0 to 255 (00_scope.md R7). -/
abbrev Byte := BitVec 8

end Sys2Proof
end

