-- ==== Sys2Proof/Config.lean ====
section
/-! DEFINITION. The fixed parameters of the block (00_scope.md R5), its open parameters (R6), and the free value the
spec leaves: what a byte of `M` holds at power-on (93_implementation_defined.md U1). -/

namespace Sys2Proof

/-- The open parameters of 00_scope.md R6. "The model takes these as arguments": they stand in State (`State.cfg`), no
step changes them, and a statement about every state is a statement about every value of them (log 1). `NUM_INSTANCES`
is not here: the model is of one instance (93_implementation_defined.md U14, log 13). -/
structure Config where
  /-- `MEM_BYTES`: size in bytes of the buffer memory `M`; valid addresses are 0 to `MEM_BYTES - 1`. -/
  memBytes : Nat
  /-- `MAX_N`: the largest original length the block's working memory can handle. -/
  maxN : Nat
  deriving DecidableEq, Repr

/-- DESIGN CHOICE (log 1): the values State.reset carries, those of the spec's own test programs
(95_test_vectors.md section 3: `MEM_BYTES = 0x1000`, `MAX_N = 0x400`). -/
def Config.ofVectors : Config := { memBytes := 0x1000, maxN := 0x400 }

/-- FREE VALUE (log 2): what the byte of `M` at an address holds after power-on, for a byte nothing has written
(10_state.md R43, 93_implementation_defined.md U1: "any value, drawn once per byte at power-on and then stable"). It
has no body: nothing can be proved of its value. -/
opaque Config.powerOnByte : Nat → Byte

/-- `ALPHABET`: number of byte values (00_scope.md R5). -/
abbrev alphabet : Nat := 256

/-- `SENTINEL_BYTE`: the byte stored at the place where the sentinel symbol stands (00_scope.md R5, decision D8). -/
abbrev sentinelByte : Byte := 0x00

/-- `INT_FIELD_BYTES`: width in bytes of the envelope's integer fields (00_scope.md R5, decision D10). -/
abbrev intFieldBytes : Nat := 4

/-- `MAX_LEAVES`: most leaves a Huffman tree can have (00_scope.md R5). -/
abbrev maxLeaves : Nat := 256

/-- `MAX_NODES`: most nodes a Huffman tree can have (00_scope.md R5). -/
abbrev maxNodes : Nat := 511

/-- `MAX_CODE_LEN`: longest possible code in bits (00_scope.md R5). -/
abbrev maxCodeLen : Nat := 255

/-- `TREE_MAX_BITS`: longest serialized tree in bits (00_scope.md R5). -/
abbrev treeMaxBits : Nat := 2559

end Sys2Proof
end

