-- ==== Sys2Proof/Syntax.lean ====
section
/-! DEFINITION. The ten commands of the block (30_encoding.md R91). A command word carries no operands: they are
always the five operand registers (R90), so no constructor has an argument. -/

namespace Sys2Proof

/-- One constructor per row of the opcode table (30_encoding.md R91). -/
inductive Instr where
  /-- `BWTF`: forward Burrows–Wheeler transform (40_bwt.md R118). -/
  | bwtf
  /-- `BWTI`: inverse Burrows–Wheeler transform (40_bwt.md R124). -/
  | bwti
  /-- `MTFE`: Move-to-Front encode (41_mtf.md R145). -/
  | mtfe
  /-- `MTFD`: Move-to-Front decode (41_mtf.md R146). -/
  | mtfd
  /-- `HUFE`: Huffman stage encode (43_bitstream.md R212). -/
  | hufe
  /-- `HUFD`: Huffman stage decode (43_bitstream.md R213). -/
  | hufd
  /-- `COMP`: the whole pipeline, with sentinel index (44_container.md R243). -/
  | comp
  /-- `DECOMP`: the inverse of `COMP` (44_container.md R245). -/
  | decomp
  /-- `HCOMP`: Huffman-only envelope (44_container.md R247). -/
  | hcomp
  /-- `HDECOMP`: the inverse of `HCOMP` (44_container.md R249). -/
  | hdecomp
  deriving DecidableEq, Repr

end Sys2Proof
end

