-- ==== Sys2Proof/WellFormed.lean ====
section
/-! DEFINITION. The checks on plain data: which command words are legal (30_encoding.md R93) and which parameter values
are in range (00_scope.md R6). An `Instr` has no operands, so every `Instr` is well formed; what can be ill formed is
the word that stands for it. -/

namespace Sys2Proof

/-- `CMD[7:0]`, the opcode field `OPC` (30_encoding.md R90). -/
def opcField (w : Word) : BitVec 8 := w.extractLsb' 0 8

/-- `CMD[31:8]`, the reserved field `RSV` (30_encoding.md R90). -/
def rsvField (w : Word) : BitVec 24 := w.extractLsb' 8 24

/-- A command word is legal when `RSV = 0` and `OPC` is one of 0x01 to 0x0A (30_encoding.md R93). -/
def wordLegal (w : Word) : Bool :=
  rsvField w == 0 && decide (1 ≤ (opcField w).toNat) && decide ((opcField w).toNat ≤ 0x0A)

/-- Every command is well formed: it has no operand that could be out of range (30_encoding.md R90). -/
def Instr.wf : Instr → Bool
  | .bwtf | .bwti | .mtfe | .mtfd | .hufe | .hufd | .comp | .decomp | .hcomp | .hdecomp => true

/-- The ranges of the open parameters (00_scope.md R6): `MEM_BYTES` 1 to 2^32, `MAX_N` 0 to 2^32 - 2. -/
def Config.wf (c : Config) : Bool :=
  decide (1 ≤ c.memBytes) && decide (c.memBytes ≤ 2 ^ 32) && decide (c.maxN ≤ 2 ^ 32 - 2)

end Sys2Proof
end

