-- ==== Sys2Proof/Decode.lean ====
section
/-! DEFINITION. Decoding a command word (30_encoding.md R91, R93, R94), total on any 32-bit word and rejecting by name,
and the encoder. -/

namespace Sys2Proof

/-- One row of the opcode map: a word `w` selects the row when `w & mask = match` (30_encoding.md R91). -/
structure OpcodeRow where
  mask : Word
  pattern : Word
  instr : Instr
  deriving DecidableEq, Repr

/-- Why a word is illegal (30_encoding.md R93). -/
inductive IllegalWord where
  /-- A bit of `RSV` (31:8) is not zero, whatever the `OPC`. -/
  | reservedBits
  /-- `RSV` is zero and `OPC` is 0x00 or 0x0B to 0xFF. -/
  | reservedOpcode
  deriving DecidableEq, Repr

/-- The ten rows of 30_encoding.md R91. -/
def opcodeTable : List OpcodeRow :=
  [ ⟨0xFFFFFFFF, 0x00000001, .bwtf⟩,
    ⟨0xFFFFFFFF, 0x00000002, .bwti⟩,
    ⟨0xFFFFFFFF, 0x00000003, .mtfe⟩,
    ⟨0xFFFFFFFF, 0x00000004, .mtfd⟩,
    ⟨0xFFFFFFFF, 0x00000005, .hufe⟩,
    ⟨0xFFFFFFFF, 0x00000006, .hufd⟩,
    ⟨0xFFFFFFFF, 0x00000007, .comp⟩,
    ⟨0xFFFFFFFF, 0x00000008, .decomp⟩,
    ⟨0xFFFFFFFF, 0x00000009, .hcomp⟩,
    ⟨0xFFFFFFFF, 0x0000000A, .hdecomp⟩ ]

/-- Whether a word selects a row (30_encoding.md R91). -/
def OpcodeRow.selects (r : OpcodeRow) (w : Word) : Bool := w &&& r.mask == r.pattern

/-- The decoder: one of the ten rows, or illegal, with the reason (30_encoding.md R93, R94). -/
def decode (w : Word) : Except IllegalWord Instr :=
  match opcodeTable.find? (fun r => r.selects w) with
  | some r => .ok r.instr
  | none => if rsvField w = 0 then .error .reservedOpcode else .error .reservedBits

/-- The opcode of a command (30_encoding.md R91). -/
def opcodeOf : Instr → BitVec 8
  | .bwtf => 0x01
  | .bwti => 0x02
  | .mtfe => 0x03
  | .mtfd => 0x04
  | .hufe => 0x05
  | .hufd => 0x06
  | .comp => 0x07
  | .decomp => 0x08
  | .hcomp => 0x09
  | .hdecomp => 0x0A

/-- The command word of a command: `OPC` in bits 7:0, `RSV = 0` above (30_encoding.md R90). -/
def encode (i : Instr) : Word := (0 : BitVec 24) ++ opcodeOf i

/-- The instruction the decoder reads from a table word of `nbits` bits (bit 0 the least significant of the one
32-bit word; every bit above `nbits` is 0). -/
def decodeTableWord (nbits w : Nat) : Option Instr :=
  match decode (BitVec.ofNat 32 (w % 2 ^ nbits)) with
  | .ok i => some i
  | .error _ => none

end Sys2Proof
end

