-- ==== Sys2Proof/Machine/State.lean ====
section
/-! DEFINITION. The state of the block (10_state.md), the reasons a step can stop, and the state after reset. -/

namespace Sys2Proof.Machine

open Sys2Proof

/-- The engine's state, `STATUS[1:0]` (10_state.md R25). -/
inductive EngineState where
  /-- 0: no command has been issued since reset. -/
  | idle
  /-- 1: a command has been issued and has not completed. -/
  | busy
  /-- 2: the last command completed without error. -/
  | done
  /-- 3: the last command completed with an error. -/
  | error
  deriving DecidableEq, Repr

/-- The two fields of `STATUS` (10_state.md R24); its other bits read as 0 and have no storage. -/
structure Status where
  /-- `STATUS[1:0]`. -/
  state : EngineState
  /-- `STATUS[7:4]`: error code of the last completed command, 0 when it succeeded or none has completed. -/
  err : BitVec 4
  deriving DecidableEq, Repr

/-- The six errors a command can end with (60_exceptions.md R270); their codes are `ErrCode.code`. -/
inductive ErrCode where
  | allocation
  | corruptTree
  | corruptStream
  | sizeMismatch
  | illegalCommand
  | operand
  deriving DecidableEq, Repr

/-- What the issue step latches: the command word and the five operands (10_state.md R31). -/
structure Latched where
  word : Word
  src : Word
  len : Word
  dst : Word
  cap : Word
  aux : Word
  deriving DecidableEq, Repr

/-- The nine registers (10_state.md R20). -/
inductive Reg where
  | cmd
  | status
  | src
  | len
  | dst
  | cap
  | aux
  | rlen
  | raux
  deriving DecidableEq, Repr

/-- The width of a host access to the register window. Only `word` is supported (20_memory.md R69). -/
inductive AccessSize where
  | byte
  | half
  | word
  deriving DecidableEq, Repr

/-- One thing the host does to the block (10_state.md R30). -/
inductive HostAction where
  /-- A read of the register window at an offset. -/
  | regRead (size : AccessSize) (off : Word)
  /-- A write to the register window at an offset. -/
  | regWrite (size : AccessSize) (off : Word) (v : Word)
  /-- A read of one byte of `M`. -/
  | memRead (a : Word)
  /-- A write of one byte of `M` (also a write to the shared `M` by another agent: another instance, another bus master). -/
  | memWrite (a : Word) (b : Byte)
  /-- `WAIT`: read `STATUS` until it is not `BUSY` (30_encoding.md R101). -/
  | wait
  /-- Reset asserted and released (70_reset_and_hazards.md R310). -/
  | reset
  deriving DecidableEq, Repr

/-- Whose move it is: the host's, with what it does, or the engine's. -/
inductive Turn where
  | host (a : HostAction)
  | engine
  deriving DecidableEq, Repr

/-- `M`: the bytes that have been written, as (address, byte) pairs with strictly rising addresses. An address not
listed has not been written; what it reads as is in `Memory.byteAt` (log 2). -/
abbrev Memory := List Host.Cell

/-- The state of one instance of the block. The registers and `M` are the spec's (10_state.md); `cfg` holds the
machine's fixed parameters; `agenda`, `seen` and `held` are the model's own and hold the world outside the block. -/
structure State where
  /-- The open parameters, the same in every step (00_scope.md R6, log 1). -/
  cfg : Config
  /-- `CMD`, offset 0x00 (10_state.md R23). -/
  cmd : Word
  /-- `STATUS`, offset 0x04 (10_state.md R24). -/
  status : Status
  /-- `SRC`, offset 0x08: base address of the source region (10_state.md R21). -/
  src : Word
  /-- `LEN`, offset 0x0C: length of the source region. -/
  len : Word
  /-- `DST`, offset 0x10: base address of the destination region. -/
  dst : Word
  /-- `CAP`, offset 0x14: capacity of the destination region. -/
  cap : Word
  /-- `AUX`, offset 0x18: auxiliary operand. -/
  aux : Word
  /-- `RLEN`, offset 0x1C: length of the result (10_state.md R22). -/
  rlen : Word
  /-- `RAUX`, offset 0x20: auxiliary result. -/
  raux : Word
  /-- The command's operands as latched at issue (10_state.md R31). -/
  latched : Latched
  /-- The buffer memory `M` (20_memory.md R60, R61). -/
  mem : Memory
  /-- MODEL: commands whose regions the host may not touch yet (70_reset_and_hazards.md R320, log 6). -/
  held : List Latched
  /-- MODEL: the turns to come, next first (log 4, log 5). -/
  agenda : List Turn
  /-- MODEL: the values the host's reads returned, newest first (log 4). -/
  seen : List Word
  deriving DecidableEq, Repr

/-- Why the machine stops with a fault. -/
inductive Fault where
  /-- The host names a byte of `M` at an address that does not exist, at or above `MEM_BYTES` (20_memory.md R60).
  Raised by the host's reads and writes of `M`, never by a command. Safe: the block itself is not involved (log 8). -/
  | noSuchAddress
  deriving DecidableEq, Repr

/-- Why the machine refuses to go on. -/
inductive Refusal where
  /-- An instruction that has no meaning yet, by its mnemonic. Raised by no arm of this model. Safe. -/
  | notModelled (mnemonic : String)
  /-- A byte or halfword access to the register window (20_memory.md R69, 93_implementation_defined.md U3:
  `refuse`). Raised by the host's register accesses. Safe (log 7). -/
  | registerAccessSize
  /-- A register access at an offset that is not a multiple of 4 (20_memory.md R69, U3: `refuse`). Raised by the
  host's register accesses. Safe (log 7). -/
  | registerAccessMisaligned
  /-- The host touches a region that belongs to the engine (20_memory.md R77, 70_reset_and_hazards.md R320, U2:
  `refuse`). Raised by the host's reads and writes of `M`. Safe (log 6). -/
  | heldRegion
  /-- Two instances run commands at the same time and the destination region of one overlaps a region of the other
  (20_memory.md R80, 70_reset_and_hazards.md R325, 93_implementation_defined.md U12: `refuse`). Raised by the step of
  several instances (`stepInstance`), never by the step of one. Safe (log 13). -/
  | instanceRegions
  deriving DecidableEq, Repr

/-- The latched operands before any command has been issued. DESIGN CHOICE (log 3): the spec gives none. -/
def Latched.none : Latched := { word := 0, src := 0, len := 0, dst := 0, cap := 0, aux := 0 }

/-- The state after reset at power-on, for given parameters: every register 0, `STATUS` reads `IDLE` with no error
(10_state.md R42), no byte of `M` written (R43). -/
def State.resetWith (c : Config) : State :=
  { cfg := c
    cmd := 0
    status := { state := .idle, err := 0 }
    src := 0
    len := 0
    dst := 0
    cap := 0
    aux := 0
    rlen := 0
    raux := 0
    latched := Latched.none
    mem := []
    held := []
    agenda := []
    seen := [] }

/-- The machine right after reset (10_state.md R42), with the parameters of log 1. -/
def State.reset : State := State.resetWith Config.ofVectors

end Sys2Proof.Machine
end

