-- ==== Sys2Proof/Machine/Flags.lean ====
section
/-! DEFINITION. `STATUS`, the only flags the block has (10_state.md R24, R25): the numbers of the states and of the
errors, and the 32-bit view the host reads. -/

namespace Sys2Proof.Machine

open Sys2Proof

/-- The value of `STATUS[1:0]` for each state (10_state.md R25). -/
def EngineState.code : EngineState → BitVec 2
  | .idle => 0
  | .busy => 1
  | .done => 2
  | .error => 3

/-- The value of `STATUS.ERR` for each error (60_exceptions.md R270). -/
def ErrCode.code : ErrCode → BitVec 4
  | .allocation => 1
  | .corruptTree => 2
  | .corruptStream => 3
  | .sizeMismatch => 4
  | .illegalCommand => 5
  | .operand => 6

/-- The register `STATUS` as the host reads it: `STATE` in 1:0, 0 in 3:2, `ERR` in 7:4, 0 in 31:8 (10_state.md R24). -/
def Status.word (st : Status) : Word := (0 : BitVec 24) ++ st.err ++ (0 : BitVec 2) ++ st.state.code

/-- Whether a command has been issued and has not completed (10_state.md R25). -/
def State.busy (s : State) : Bool := s.status.state == .busy

/-- Whether a `STATUS` read returns `DONE` or `ERROR`: the command has completed (20_memory.md R76). -/
def State.completed (s : State) : Bool := s.status.state == .done || s.status.state == .error

end Sys2Proof.Machine
end

