-- ==== Sys2Proof/Machine/Ops.lean ====
section
/-! DEFINITION. The named operations over memory and registers: `M` (20_memory.md), the register window
(10_state.md R20 to R27), the issue step (R31), the commit of a result (R32), error entry (60_exceptions.md R280) and
reset (70_reset_and_hazards.md R310). -/

namespace Sys2Proof.Machine

open Sys2Proof

/-! ### The buffer memory -/

/-- The canonical form of `M`: addresses strictly rising. An unlisted address reads as no written byte (`none`), which
no entry can equal, so this is the whole of the form (log 2). -/
abbrev Memory.wf (m : Memory) : Prop := m.Pairwise (fun c d => c.1 < d.1)

/-- The byte last written at an address, if any was (20_memory.md R61). -/
def Memory.written (m : Memory) (a : Nat) : Option Byte :=
  match m with
  | [] => none
  | c :: rest => if c.1 = a then some c.2 else Memory.written rest a

/-- What an address holds: the byte most recently written there (20_memory.md R61), and before any write the byte the
power-on drew (93_implementation_defined.md U1, log 2). -/
def Memory.byteAt (m : Memory) (a : Nat) : Byte := (Memory.written m a).getD (Config.powerOnByte a)

/-- Write one byte, keeping the addresses strictly rising (20_memory.md R61). -/
def Memory.setByte (m : Memory) (a : Nat) (b : Byte) : Memory :=
  match m with
  | [] => [(a, b)]
  | c :: rest =>
    if a < c.1 then (a, b) :: c :: rest
    else if a = c.1 then (a, b) :: rest
    else c :: Memory.setByte rest a b

/-- `MemRead(addr, n)`: the `n` bytes at `addr` to `addr + n - 1`, lowest address first (20_memory.md R63, R64). -/
def memRead (m : Memory) (addr n : Nat) : List Byte := (List.range n).map fun i => Memory.byteAt m (addr + i)

/-- `MemWrite(addr, len v, v)`: store the buffer, lowest address first, and nothing else (20_memory.md R65). -/
def memWrite (m : Memory) (addr : Nat) (v : List Byte) : Memory :=
  match v with
  | [] => m
  | b :: rest => memWrite (Memory.setByte m addr b) (addr + 1) rest

/-! ### The register window -/

/-- The word offset of each register (10_state.md R20). -/
def Reg.offset : Reg → Word
  | .cmd => 0x00
  | .status => 0x04
  | .src => 0x08
  | .len => 0x0C
  | .dst => 0x10
  | .cap => 0x14
  | .aux => 0x18
  | .rlen => 0x1C
  | .raux => 0x20

/-- The nine registers in the order of their offsets. -/
def allRegs : List Reg := [.cmd, .status, .src, .len, .dst, .cap, .aux, .rlen, .raux]

/-- The register at a word offset, if it is one of the nine (10_state.md R20, R26). -/
def regAt (off : Word) : Option Reg := allRegs.find? fun r => r.offset == off

/-- The value of a register (10_state.md R21 to R24). -/
def State.reg (s : State) : Reg → Word
  | .cmd => s.cmd
  | .status => s.status.word
  | .src => s.src
  | .len => s.len
  | .dst => s.dst
  | .cap => s.cap
  | .aux => s.aux
  | .rlen => s.rlen
  | .raux => s.raux

/-- What a host read of a word offset returns: the register's value, or 0 at any other offset (10_state.md R26). -/
def readOffset (s : State) (off : Word) : Word :=
  match regAt off with
  | some r => s.reg r
  | none => 0

/-- The issue step (10_state.md R31): store the word, latch the operands, go `BUSY`, clear `ERR`, `RLEN`, `RAUX`. It
checks nothing. From here the regions are the engine's (70_reset_and_hazards.md R320): the command joins `held`. -/
def issue (w : Word) (s : State) : State :=
  let l : Latched := { word := w, src := s.src, len := s.len, dst := s.dst, cap := s.cap, aux := s.aux }
  { s with cmd := w, latched := l, status := { state := .busy, err := 0 }, rlen := 0, raux := 0, held := l :: s.held }

/-- A host write of a word offset: ignored while `BUSY` (10_state.md R27); `CMD` issues (R23, R31); an operand register
takes the value (R21); a read-only register (R22, R24) or any other offset (R26) ignores it. -/
def writeOffset (off v : Word) (s : State) : State :=
  if s.busy then s
  else match regAt off with
    | some .cmd => issue v s
    | some .src => { s with src := v }
    | some .len => { s with len := v }
    | some .dst => { s with dst := v }
    | some .cap => { s with cap := v }
    | some .aux => { s with aux := v }
    | some .status => s
    | some .rlen => s
    | some .raux => s
    | none => s

/-- The host has read a value: it joins `seen`. -/
def observe (v : Word) (s : State) : State := { s with seen := v :: s.seen }

/-- The regions go back to the host when a `STATUS` read returns `DONE` or `ERROR` (20_memory.md R76,
70_reset_and_hazards.md R320); any other `STATUS` read changes nothing. -/
def handBack (s : State) : State := if s.completed then { s with held := [] } else s

/-- A host read of a word offset: it returns the value and has no side effect on the block (10_state.md R21 to R24). A
read of `STATUS` that sees the command completed hands the regions back. -/
def readRegister (off : Word) (s : State) : State :=
  match regAt off with
  | some .status => handBack (observe (readOffset s off) s)
  | _ => observe (readOffset s off) s

/-- Reset asserted and released (70_reset_and_hazards.md R310, R311): every register takes its reset value, a running
command is abandoned, `M` is not touched (10_state.md R43). The parameters stay, and so does what the host goes on to do. -/
def resetEvent (s : State) : State :=
  { State.resetWith s.cfg with mem := s.mem, agenda := s.agenda, seen := s.seen }

/-! ### Completion -/

/-- The completion step's success case (10_state.md R32): the result is written to the destination region, `RLEN` and
`RAUX` are set, `STATE` becomes `DONE` and `ERR` stays. -/
def commit (out : List Byte) (raux : Nat) (s : State) : State :=
  { s with
    mem := memWrite s.mem s.latched.dst.toNat out
    rlen := BitVec.ofNat 32 out.length
    raux := BitVec.ofNat 32 raux
    status := { s.status with state := .done } }

/-- Error entry (60_exceptions.md R280): `ERR`, `STATE`, and `RLEN = RAUX = 0`; nothing else changes. There is no
return from it: the next `CMD` write issues the next command (R283), which is `issue`. -/
def errorEntry (e : ErrCode) (s : State) : State :=
  { s with status := { state := .error, err := e.code }, rlen := 0, raux := 0 }

end Sys2Proof.Machine
end

