-- ==== Sys2Proof/Machine/Operands.lean ====
section
/-! DEFINITION. How a command takes its operands: the source and destination regions and their check (20_memory.md R70,
R71), the limits on working memory and capacity (60_exceptions.md R272), and `Exec` (30_encoding.md R99), which every
command shares. -/

namespace Sys2Proof.Machine

open Sys2Proof

/-- The regions of a command overlap: both are non-empty and they share an address (20_memory.md R71). -/
def regionsOverlap (l : Latched) : Bool :=
  decide (0 < l.len.toNat) && decide (0 < l.cap.toNat) && decide (l.src.toNat < l.dst.toNat + l.cap.toNat) &&
    decide (l.dst.toNat < l.src.toNat + l.len.toNat)

/-- `CheckRegions` (20_memory.md R71), in natural-number arithmetic with no wrap-around. -/
def checkRegions (c : Config) (l : Latched) : Except ErrCode Unit :=
  if l.src.toNat + l.len.toNat > c.memBytes then .error .operand
  else if l.dst.toNat + l.cap.toNat > c.memBytes then .error .operand
  else if regionsOverlap l then .error .operand
  else .ok ()

/-- An address lies in the region of `n` bytes at a base (20_memory.md R70). -/
def inRegion (base n : Word) (a : Nat) : Bool := decide (base.toNat ≤ a) && decide (a < base.toNat + n.toNat)

/-- The host may not read this byte while the command's regions are the engine's: it is in the destination region
(20_memory.md R77, 70_reset_and_hazards.md R320). -/
def Latched.forbidsRead (l : Latched) (a : Nat) : Bool := inRegion l.dst l.cap a

/-- The host may not write this byte while the command's regions are the engine's: it is in one of the two
(20_memory.md R77, 70_reset_and_hazards.md R320). -/
def Latched.forbidsWrite (l : Latched) (a : Nat) : Bool := inRegion l.src l.len a || inRegion l.dst l.cap a

/-- A command's working memory or destination is too small: `AllocationError` when `need` is above `limit`
(60_exceptions.md R272). -/
def requireAtMost (need limit : Nat) : Except ErrCode Unit :=
  if need > limit then .error .allocation else .ok ()

/-- The source bytes of the command (20_memory.md R70, R64). -/
def sourceBytes (s : State) : List Byte := memRead s.mem s.latched.src.toNat s.latched.len.toNat

/-- What a command body computes: the result bytes and the auxiliary result, or an error (30_encoding.md R99), from
the parameters, the source bytes, `LEN`, `CAP` and `AUX`. -/
abbrev Body := Config → List Byte → Nat → Nat → Nat → Except ErrCode (List Byte × Nat)

/-- `Exec` for a legal word (30_encoding.md R99): the region check, the read of the source region, the body, the final
capacity test. -/
def execBody (body : Body) (s : State) : Except ErrCode (List Byte × Nat) :=
  match checkRegions s.cfg s.latched with
  | .error e => .error e
  | .ok _ =>
    match body s.cfg (sourceBytes s) s.latched.len.toNat s.latched.cap.toNat s.latched.aux.toNat with
    | .error e => .error e
    | .ok r => if r.1.length > s.latched.cap.toNat then .error .allocation else .ok r

/-- The completion step of a command with this body (10_state.md R32): commit on success, error entry on error. -/
def complete (body : Body) (s : State) : Host.Outcome State Fault Refusal :=
  match execBody body s with
  | .ok r => .next (commit r.1 r.2 s)
  | .error e => .next (errorEntry e s)

end Sys2Proof.Machine
end

