-- ==== Sys2Proof/Machine/Bwt.lean ====
section
/-! DEFINITION. The Burrows–Wheeler transform (40_bwt.md): symbols and their order, the suffix array, the forward
transform, the inverse by LF-mapping, and the commands `BWTF` and `BWTI`. -/

namespace Sys2Proof.Machine

open Sys2Proof

/-- A symbol of the BWT: one of the 256 bytes, or the sentinel (40_bwt.md R110). -/
inductive Sym where
  | sent
  | byte (b : Byte)
  deriving DecidableEq, Repr

/-- The ordinal of a symbol: 0 for the sentinel, `b + 1` for a byte (40_bwt.md R110). -/
def Sym.ord : Sym → Nat
  | .sent => 0
  | .byte b => b.toNat + 1

/-- The sentinel-appended buffer (40_bwt.md R111). -/
def sentinelAppended (x : List Byte) : List Sym := x.map Sym.byte ++ [Sym.sent]

/-- The order of two symbol sequences: by ordinal at the first position where they differ (40_bwt.md R112). Two equal
sequences are each at most the other; a proper initial part comes first. -/
def symsLe : List Sym → List Sym → Bool
  | [], _ => true
  | _ :: _, [] => false
  | a :: as, b :: bs => if a.ord < b.ord then true else if b.ord < a.ord then false else symsLe as bs

/-- The suffix at an offset (40_bwt.md R112). -/
def suffixAt (s : List Sym) (i : Nat) : List Sym := s.drop i

/-- The rotation at an offset (40_bwt.md R114). The transform does not use it: rotations and suffixes have one order. -/
def rotationAt (s : List Sym) (i : Nat) : List Sym := s.drop i ++ s.take i

/-- Insert an offset into a list of offsets sorted by their suffixes. -/
def insertOffset (s : List Sym) (o : Nat) : List Nat → List Nat
  | [] => [o]
  | p :: rest => if symsLe (suffixAt s o) (suffixAt s p) then o :: p :: rest else p :: insertOffset s o rest

/-- Sort offsets by their suffixes. The algorithm is free; only the result counts (40_bwt.md R115). -/
def sortOffsets (s : List Sym) : List Nat → List Nat
  | [] => []
  | o :: rest => insertOffset s o (sortOffsets s rest)

/-- `SuffixArray(x)`: the offsets 0 to n of the sentinel-appended buffer, sorted by suffix (40_bwt.md R113). -/
def suffixArray (x : List Byte) : List Nat := sortOffsets (sentinelAppended x) (List.range (x.length + 1))

/-- The byte of the BWT output in the row of an offset: the one cyclically before it, and the sentinel's placeholder
before offset 0 (40_bwt.md R116, R117). The offset is at most n, so the default is never taken (log 19). -/
def bwtByteBefore (x : List Byte) (o : Nat) : Byte := if o = 0 then sentinelByte else x.getD (o - 1) 0

/-- `BWT_fwd(x)`: the BWT output and the sentinel index, the row whose offset is 0 (40_bwt.md R116). -/
def bwtFwd (x : List Byte) : List Byte × Nat :=
  ((suffixArray x).map (bwtByteBefore x), (suffixArray x).idxOf 0)

/-- The ordinal at a position of a transformed buffer with its sentinel at `ix`; the byte there is not looked at
(40_bwt.md R119). -/
def ordAt (t : List Byte) (ix i : Nat) : Nat := if i = ix then 0 else (t.getD i 0).toNat + 1

/-- The ordinals of a transformed buffer (40_bwt.md R119). -/
def ordinals (t : List Byte) (ix : Nat) : List Nat := (List.range t.length).map (ordAt t ix)

/-- The cumulative count table `C[v]`: positions whose ordinal is below `v` (40_bwt.md R120). -/
def countBelow (o : List Nat) (v : Nat) : Nat := o.countP (fun w => decide (w < v))

/-- `rank[i]`: earlier positions with the same ordinal (40_bwt.md R120). -/
def rankAt (o : List Nat) (i : Nat) : Nat := (o.take i).count (o.getD i 0)

/-- The LF-mapping `C[o[i]] + rank[i]` (40_bwt.md R121). -/
def lfMap (o : List Nat) (i : Nat) : Nat := countBelow o (o.getD i 0) + rankAt o i

/-- The byte the walk stores for a row: the sentinel's placeholder at the sentinel's row (40_bwt.md R122). -/
def walkByte (t : List Byte) (ix idx : Nat) : Byte := if idx = ix then sentinelByte else t.getD idx 0

/-- The walk of the inverse (40_bwt.md R122): `k` steps from row `idx`, each storing one position lower than the step
before, so that the buffer grows at its front. -/
def bwtWalk (t : List Byte) (ix : Nat) (o : List Nat) : Nat → Nat → List Byte → List Byte × Nat
  | 0, idx, out => (out, idx)
  | k + 1, idx, out => bwtWalk t ix o k (lfMap o idx) (walkByte t ix idx :: out)

/-- `BWT_inv(T, I)`: the buffer and the row the walk ends on (40_bwt.md R122). -/
def bwtInv (t : List Byte) (ix : Nat) : List Byte × Nat := bwtWalk t ix (ordinals t ix) t.length ix []

/-- `BWTF` body (40_bwt.md R118). -/
def bwtfBody : Body := fun c src len cap _aux =>
  match requireAtMost len c.maxN with
  | .error e => .error e
  | .ok _ =>
    match requireAtMost (len + 1) cap with
    | .error e => .error e
    | .ok _ => .ok (bwtFwd src)

/-- `BWTI` body (40_bwt.md R124). -/
def bwtiBody : Body := fun c src len cap aux =>
  match requireAtMost len (c.maxN + 1) with
  | .error e => .error e
  | .ok _ =>
    match requireAtMost len cap with
    | .error e => .error e
    | .ok _ => if len = 0 ∨ aux ≥ len then .error .corruptStream else .ok (bwtInv src aux)

/-- The command `BWTF` (40_bwt.md R118). -/
def execBwtf (s : State) : Host.Outcome State Fault Refusal := complete bwtfBody s

/-- The command `BWTI` (40_bwt.md R124). -/
def execBwti (s : State) : Host.Outcome State Fault Refusal := complete bwtiBody s

end Sys2Proof.Machine
end

