-- ==== Sys2Proof/Machine/BitStream.lean ====
section
/-! DEFINITION. Bits in bytes: the bit order, the bit writer and the bit reader (43_bitstream.md R200 to R205). A bit is
a Bool, `false` for 0 and `true` for 1. -/

namespace Sys2Proof.Machine

open Sys2Proof

/-- `ceil8(k)`: the number of bytes that hold `k` bits (00_scope.md R9). -/
def ceil8 (k : Nat) : Nat := (k + 7) / 8

/-- The 8 bits of a byte, bit 7 first (43_bitstream.md R200, 42_huffman_tree.md R171). -/
def bits8 (b : Byte) : List Bool := (List.range 8).map fun i => b.getMsbD i

/-- Stream bit `q` of a buffer: bit `7 - (q mod 8)` of byte `q div 8` (43_bitstream.md R200). -/
def streamBit (d : List Byte) (q : Nat) : Bool := (d.getD (q / 8) 0).getMsbD (q % 8)

/-- The number a bit stands for in a value. -/
def bitNat (b : Bool) : Nat := if b then 1 else 0

/-- The byte whose bits, bit 7 first, are the first 8 of a bit string, padded with zeros (43_bitstream.md R202). -/
def byteOfBits (bits : List Bool) : Byte :=
  BitVec.ofNat 8 ((List.range 8).foldl (fun v i => 2 * v + bitNat (bits.getD i false)) 0)

/-- `PackBits(bits)`: the bytes whose stream bits are the bit string padded with zeros to a whole byte
(43_bitstream.md R202). -/
def packBits (bits : List Bool) : List Byte :=
  (List.range (ceil8 bits.length)).map fun k => byteOfBits ((bits.drop (8 * k)).take 8)

/-- The bit writer as the hardware has it (43_bitstream.md R201): the bytes flushed, the accumulator, and the count of
bits in it, 0 to 7. The commands use `packBits`; the two give the same bytes. -/
structure BitWriter where
  bytes : List Byte
  acc : Byte
  count : Nat
  deriving DecidableEq, Repr

/-- The writer at the start: an empty buffer and `c = 0` (43_bitstream.md R201). -/
def emptyWriter : BitWriter := { bytes := [], acc := 0, count := 0 }

/-- Write one bit into bit `7 - c` of the accumulator, flushing a full byte (43_bitstream.md R201). -/
def writeBit (w : BitWriter) (b : Bool) : BitWriter :=
  let acc := w.acc ||| BitVec.ofNat 8 (bitNat b <<< (7 - w.count))
  if w.count + 1 = 8 then { bytes := w.bytes ++ [acc], acc := 0, count := 0 }
  else { bytes := w.bytes, acc := acc, count := w.count + 1 }

/-- Flush at the end of a stream: a partial accumulator becomes a last byte (43_bitstream.md R202). -/
def flushWriter (w : BitWriter) : List Byte := if w.count > 0 then w.bytes ++ [w.acc] else w.bytes

/-- Everything the incremental writer gives for a bit string (43_bitstream.md R201, R202). -/
def writeBits (bits : List Bool) : List Byte := flushWriter (bits.foldl writeBit emptyWriter)

/-- The bit reader (43_bitstream.md R203): a buffer, the number of bits consumed, and the error it raises at end of
stream (R204). -/
structure BitReader where
  data : List Byte
  pos : Nat
  eos : ErrCode
  deriving DecidableEq, Repr

/-- A reader at the start of a buffer (43_bitstream.md R203, 10_state.md R39). -/
def newReader (d : List Byte) (e : ErrCode) : BitReader := { data := d, pos := 0, eos := e }

/-- `r.bit()`: the next bit, or the end-of-stream error (43_bitstream.md R203, R204). -/
def readBit (r : BitReader) : Except ErrCode (Bool × BitReader) :=
  if r.pos < 8 * r.data.length then .ok (streamBit r.data r.pos, { r with pos := r.pos + 1 }) else .error r.eos

/-- `k` bits as a number, first bit most significant, after `v` (42_huffman_tree.md R173). -/
def readNumber : Nat → Nat → BitReader → Except ErrCode (Nat × BitReader)
  | 0, v, r => .ok (v, r)
  | k + 1, v, r =>
    match readBit r with
    | .error e => .error e
    | .ok br => readNumber k (2 * v + bitNat br.1) br.2

/-- `r.align()`: move to the next byte boundary (43_bitstream.md R205). -/
def alignReader (r : BitReader) : BitReader := { r with pos := 8 * ceil8 r.pos }

/-- `r.bytes()`: the number of bytes touched so far (43_bitstream.md R205). -/
def readerBytes (r : BitReader) : Nat := ceil8 r.pos

end Sys2Proof.Machine
end

