-- ==== Sys2Proof/Machine/HuffmanTree.lean ====
section
/-! DEFINITION. The Huffman tree (42_huffman_tree.md): histogram, tree builder, code assigner, serializer and
deserializer. -/

namespace Sys2Proof.Machine

open Sys2Proof

/-- A Huffman tree once built: leaves own a symbol, internal nodes exactly two children (42_huffman_tree.md R162). -/
inductive Tree where
  | leaf (sym : Byte)
  | node (l r : Tree)
  deriving DecidableEq, Repr

/-- The symbols of a tree's leaves, left to right (42_huffman_tree.md R162). -/
def treeSymbols : Tree → List Byte
  | .leaf v => [v]
  | .node l r => treeSymbols l ++ treeSymbols r

/-- The number of internal nodes of a tree (42_huffman_tree.md R162, R167). -/
def treeInternals : Tree → Nat
  | .leaf _ => 0
  | .node l r => treeInternals l + treeInternals r + 1

/-- The height of a tree (42_huffman_tree.md R177). -/
def treeHeight : Tree → Nat
  | .leaf _ => 0
  | .node l r => max (treeHeight l) (treeHeight r) + 1

/-! ### Frequency analysis -/

/-- `Hist(z)`: how often each byte value occurs (42_huffman_tree.md R160). -/
def hist (z : List Byte) (v : Byte) : Nat := z.count v

/-- The 256 byte values in increasing order. -/
def allBytes : List Byte := (List.range alphabet).map (BitVec.ofNat 8)

/-! ### Construction -/

/-- A node in the builder's queue: its weight, its id in order of creation, and the tree it stands for
(42_huffman_tree.md R163, R165). -/
structure QNode where
  weight : Nat
  id : Nat
  tree : Tree
  deriving DecidableEq, Repr

/-- The queue's order: lower weight first, among equal weights the lower id (42_huffman_tree.md R165). -/
def qnodeBefore (a b : QNode) : Bool := decide (a.weight < b.weight) || (decide (a.weight = b.weight) && decide (a.id < b.id))

/-- Insert a node into the queue, which is kept in order (any structure that returns the least element gives the same
tree, 42_huffman_tree.md R165). -/
def enqueue (n : QNode) : List QNode → List QNode
  | [] => [n]
  | q :: rest => if qnodeBefore n q then n :: q :: rest else q :: enqueue n rest

/-- The leaves, in increasing symbol order, with ids from 0 (42_huffman_tree.md R164). -/
def leafNodes (freq : Byte → Nat) : List QNode :=
  ((allBytes.filter fun v => decide (freq v > 0)).zipIdx).map fun p =>
    { weight := freq p.1, id := p.2, tree := .leaf p.1 }

/-- The merge of two extracted nodes: the first is the left child, the second the right (42_huffman_tree.md R165). -/
def mergeNodes (a b : QNode) (id : Nat) : QNode := { weight := a.weight + b.weight, id := id, tree := .node a.tree b.tree }

/-- The merge loop (42_huffman_tree.md R165): while more than one node is queued, merge the two least. Each round takes
one node off the queue, so as many rounds as there are nodes always suffice (log 16). -/
def mergeLoop : Nat → Nat → List QNode → Option QNode
  | 0, _, _ => none
  | _ + 1, _, [] => none
  | _ + 1, _, [n] => some n
  | k + 1, next, a :: b :: rest => mergeLoop k (next + 1) (enqueue (mergeNodes a b next) rest)

/-- The root node the builder ends with, `None` for an empty input (42_huffman_tree.md R165, R166). -/
def buildRoot (freq : Byte → Nat) : Option QNode :=
  let leaves := leafNodes freq
  mergeLoop leaves.length leaves.length (leaves.foldr enqueue [])

/-- `Build(freq)` (42_huffman_tree.md R164 to R166). -/
def build (freq : Byte → Nat) : Option Tree := (buildRoot freq).map QNode.tree

/-! ### Codes -/

/-- A code table: byte values and their bit strings (42_huffman_tree.md R170). -/
abbrev CodeTable := List (Byte × List Bool)

/-- `Walk(tree, path)`: a leaf's code is the path to it, 0 for a left edge and 1 for a right one
(42_huffman_tree.md R168). -/
def walkCodes : Tree → List Bool → CodeTable
  | .leaf v, path => [(v, path)]
  | .node l r, path => walkCodes l (path ++ [false]) ++ walkCodes r (path ++ [true])

/-- `Codes(tree)` (42_huffman_tree.md R168); the one-leaf tree's symbol has the code `0` (R169). -/
def codes : Option Tree → CodeTable
  | none => []
  | some (.leaf v) => [(v, [false])]
  | some (.node l r) => walkCodes (.node l r) []

/-- The code of a symbol. The packer asks only for symbols that have one (42_huffman_tree.md R170, log 19). -/
def codeOf (table : CodeTable) (v : Byte) : List Bool :=
  match table with
  | [] => []
  | e :: rest => if e.1 = v then e.2 else codeOf rest v

/-! ### Serialization -/

/-- The preorder bit string of a tree: 1 and the symbol for a leaf, 0 and both subtrees for a node
(42_huffman_tree.md R171). -/
def serTree : Tree → List Bool
  | .leaf v => true :: bits8 v
  | .node l r => false :: (serTree l ++ serTree r)

/-- `SerBits(tree)` (42_huffman_tree.md R171). -/
def serBits : Option Tree → List Bool
  | none => []
  | some t => serTree t

/-- `TreeBytes(tree)` (42_huffman_tree.md R172). -/
def treeBytes (t : Option Tree) : List Byte := packBits (serBits t)

/-! ### Deserialization -/

/-- `DeserNode(r, seen)` (42_huffman_tree.md R173): the subtree, the reader after it and the symbols seen. Each call
consumes a bit, so a fuel above the number of bits never runs out (log 16). -/
def deserNode : Nat → BitReader → List Byte → Except ErrCode (Tree × BitReader × List Byte)
  | 0, _, _ => .error .corruptTree
  | k + 1, r, seen =>
    match readBit r with
    | .error e => .error e
    | .ok (true, r1) =>
      match readNumber 8 0 r1 with
      | .error e => .error e
      | .ok (n, r2) =>
        if BitVec.ofNat 8 n ∈ seen then .error .corruptTree
        else .ok (.leaf (BitVec.ofNat 8 n), r2, BitVec.ofNat 8 n :: seen)
    | .ok (false, r1) =>
      match deserNode k r1 seen with
      | .error e => .error e
      | .ok (l, r2, seen2) =>
        match deserNode k r2 seen2 with
        | .error e => .error e
        | .ok (rt, r3, seen3) => .ok (.node l rt, r3, seen3)

/-- `Deser(r)`: one tree, then the next byte boundary (42_huffman_tree.md R173, R175). -/
def deser (r : BitReader) : Except ErrCode (Tree × BitReader) :=
  match deserNode (8 * r.data.length + 1) r [] with
  | .error e => .error e
  | .ok (t, r1, _) => .ok (t, alignReader r1)

end Sys2Proof.Machine
end

