-- ==== Sys2Proof/Machine/Huffman.lean ====
section
/-! DEFINITION. The Huffman stage (43_bitstream.md R206 to R213): the payload packer and unpacker, the stage functions,
and the commands `HUFE` and `HUFD`. -/

namespace Sys2Proof.Machine

open Sys2Proof

/-- The code bits of a buffer, in input order (43_bitstream.md R206). -/
def payloadBits (z : List Byte) (table : CodeTable) : List Bool := z.flatMap (codeOf table)

/-- `Pack(z, table)` (43_bitstream.md R206). -/
def pack (z : List Byte) (table : CodeTable) : List Byte := packBits (payloadBits z table)

/-- One symbol: walk from a node to a leaf, one bit an edge (43_bitstream.md R207). -/
def decodeSymbol : Tree → BitReader → Except ErrCode (Byte × BitReader)
  | .leaf v, r => .ok (v, r)
  | .node l rt, r =>
    match readBit r with
    | .error e => .error e
    | .ok (false, r1) => decodeSymbol l r1
    | .ok (true, r1) => decodeSymbol rt r1

/-- One symbol of a one-leaf tree: a bit, which must be 0 (43_bitstream.md R208). -/
def decodeOneLeaf (v : Byte) (r : BitReader) : Except ErrCode (Byte × BitReader) :=
  match readBit r with
  | .error e => .error e
  | .ok (true, _) => .error .corruptStream
  | .ok (false, r1) => .ok (v, r1)

/-- One symbol of a tree, whichever shape its root has (43_bitstream.md R207, R208). -/
def decodeNext (t : Tree) (r : BitReader) : Except ErrCode (Byte × BitReader) :=
  match t with
  | .leaf v => decodeOneLeaf v r
  | .node l rt => decodeSymbol (.node l rt) r

/-- `Unpack(r, tree, count)`: the symbols and the reader after them (43_bitstream.md R207, R208). -/
def unpack (t : Tree) : Nat → BitReader → Except ErrCode (List Byte × BitReader)
  | 0, r => .ok ([], r)
  | k + 1, r =>
    match decodeNext t r with
    | .error e => .error e
    | .ok (v, r1) =>
      match unpack t k r1 with
      | .error e => .error e
      | .ok (out, r2) => .ok (v :: out, r2)

/-- `HUF_enc(z)`: tree bytes and payload, and the length of the tree bytes (43_bitstream.md R210). -/
def hufEnc (z : List Byte) : List Byte × Nat :=
  let tree := build (hist z)
  let tb := treeBytes tree
  (tb ++ pack z (codes tree), tb.length)

/-- `HUF_dec(src, count)`: the symbols and the length of the tree bytes consumed (43_bitstream.md R209, R211). -/
def hufDec (src : List Byte) (count : Nat) : Except ErrCode (List Byte × Nat) :=
  if count = 0 then
    if src.length ≠ 0 then .error .sizeMismatch else .ok ([], 0)
  else
    match deser (newReader src .corruptTree) with
    | .error e => .error e
    | .ok (tree, rt) =>
      match unpack tree count (newReader (src.drop (readerBytes rt)) .sizeMismatch) with
      | .error e => .error e
      | .ok (out, rp) =>
        if (src.drop (readerBytes rt)).length ≠ ceil8 rp.pos then .error .sizeMismatch
        else .ok (out, readerBytes rt)

/-- `HUFE` body (43_bitstream.md R212). -/
def hufeBody : Body := fun c src len cap _aux =>
  match requireAtMost len (c.maxN + 1) with
  | .error e => .error e
  | .ok _ =>
    let h := hufEnc src
    match requireAtMost h.1.length cap with
    | .error e => .error e
    | .ok _ => .ok h

/-- `HUFD` body (43_bitstream.md R213). -/
def hufdBody : Body := fun c src _len cap aux =>
  match requireAtMost aux (c.maxN + 1) with
  | .error e => .error e
  | .ok _ =>
    match requireAtMost aux cap with
    | .error e => .error e
    | .ok _ => hufDec src aux

/-- The command `HUFE` (43_bitstream.md R212). -/
def execHufe (s : State) : Host.Outcome State Fault Refusal := complete hufeBody s

/-- The command `HUFD` (43_bitstream.md R213). -/
def execHufd (s : State) : Host.Outcome State Fault Refusal := complete hufdBody s

end Sys2Proof.Machine
end

