-- ==== Sys2Proof/Machine/Mtf.lean ====
section
/-! DEFINITION. The Move-to-Front coder (41_mtf.md) and the commands `MTFE` and `MTFD`. -/

namespace Sys2Proof.Machine

open Sys2Proof

/-- The permutation every encode and decode starts from, `P[j] = j` (41_mtf.md R140, 10_state.md R37). -/
def identityPerm : List Byte := (List.range alphabet).map (BitVec.ofNat 8)

/-- `MoveToFront(P, j)`: the byte at `j` goes to the front, those before it move back one place (41_mtf.md R141). For a
position of the permutation the default is never taken (log 19). -/
def moveToFront (p : List Byte) (j : Nat) : List Byte := p.getD j 0 :: p.eraseIdx j

/-- Encode from a permutation: emit each byte's position, then move it to the front (41_mtf.md R142). -/
def mtfEncFrom (p : List Byte) : List Byte → List Byte
  | [] => []
  | b :: rest => BitVec.ofNat 8 (p.idxOf b) :: mtfEncFrom (moveToFront p (p.idxOf b)) rest

/-- `MTF_enc(y)` (41_mtf.md R142). -/
def mtfEnc (y : List Byte) : List Byte := mtfEncFrom identityPerm y

/-- Decode from a permutation: emit the byte at each position, then move it to the front (41_mtf.md R143). -/
def mtfDecFrom (p : List Byte) : List Byte → List Byte
  | [] => []
  | z :: rest => p.getD z.toNat 0 :: mtfDecFrom (moveToFront p z.toNat) rest

/-- `MTF_dec(z)` (41_mtf.md R143). -/
def mtfDec (z : List Byte) : List Byte := mtfDecFrom identityPerm z

/-- The permutation after encoding a buffer (41_mtf.md R144: step for step that of decoding the same data). -/
def mtfEncPerm (p : List Byte) : List Byte → List Byte
  | [] => p
  | b :: rest => mtfEncPerm (moveToFront p (p.idxOf b)) rest

/-- The permutation after decoding an index buffer (41_mtf.md R144). -/
def mtfDecPerm (p : List Byte) : List Byte → List Byte
  | [] => p
  | z :: rest => mtfDecPerm (moveToFront p z.toNat) rest

/-- `MTFE` body (41_mtf.md R145). -/
def mtfeBody : Body := fun c src len cap _aux =>
  match requireAtMost len (c.maxN + 1) with
  | .error e => .error e
  | .ok _ =>
    match requireAtMost len cap with
    | .error e => .error e
    | .ok _ => .ok (mtfEnc src, 0)

/-- `MTFD` body (41_mtf.md R146). -/
def mtfdBody : Body := fun c src len cap _aux =>
  match requireAtMost len (c.maxN + 1) with
  | .error e => .error e
  | .ok _ =>
    match requireAtMost len cap with
    | .error e => .error e
    | .ok _ => .ok (mtfDec src, 0)

/-- The command `MTFE` (41_mtf.md R145). -/
def execMtfe (s : State) : Host.Outcome State Fault Refusal := complete mtfeBody s

/-- The command `MTFD` (41_mtf.md R146). -/
def execMtfd (s : State) : Host.Outcome State Fault Refusal := complete mtfdBody s

end Sys2Proof.Machine
end

