-- ==== Sys2Proof/Machine/Container.lean ====
section
/-! DEFINITION. The container framer (44_container.md): the two envelopes, `compress` and `decompress`, and the commands
`COMP`, `DECOMP`, `HCOMP` and `HDECOMP`. -/

namespace Sys2Proof.Machine

open Sys2Proof

/-- `u32le(v)`: four bytes, least significant first (44_container.md R241). -/
def u32le (v : Nat) : List Byte :=
  [BitVec.ofNat 8 v, BitVec.ofNat 8 (v / 256), BitVec.ofNat 8 (v / 65536), BitVec.ofNat 8 (v / 16777216)]

/-- `le32(b)`, the inverse on four bytes (44_container.md R241, 00_scope.md R9). -/
def le32 (b : List Byte) : Nat :=
  (b.getD 0 0).toNat + 256 * (b.getD 1 0).toNat + 65536 * (b.getD 2 0).toNat + 16777216 * (b.getD 3 0).toNat

/-- `Compress(x)`: the full envelope and the sentinel index (44_container.md R242). -/
def compress (x : List Byte) : List Byte × Nat :=
  let b := bwtFwd x
  let h := hufEnc (mtfEnc b.1)
  (u32le x.length ++ u32le b.2 ++ h.1, b.2)

/-- `Decompress(e, CAP)` (44_container.md R244), for a block whose working memory holds `maxN` bytes. -/
def decompress (maxN : Nat) (e : List Byte) (cap : Nat) : Except ErrCode (List Byte × Nat) :=
  if e.length < 8 then .error .corruptStream
  else
    let n := le32 (e.take 4)
    let ix := le32 ((e.drop 4).take 4)
    match requireAtMost n maxN with
    | .error e => .error e
    | .ok _ =>
      match requireAtMost n cap with
      | .error e => .error e
      | .ok _ =>
        if ix > n then .error .corruptStream
        else
          match hufDec (e.drop 8) (n + 1) with
          | .error e => .error e
          | .ok z => .ok ((bwtInv (mtfDec z.1) ix).1.take n, ix)

/-- `HCompress(x)` (44_container.md R246). -/
def hCompress (x : List Byte) : List Byte × Nat :=
  let h := hufEnc x
  (u32le x.length ++ h.1, h.2)

/-- `HDecompress(e, CAP)` (44_container.md R248), for a block whose working memory holds `maxN` bytes. -/
def hDecompress (maxN : Nat) (e : List Byte) (cap : Nat) : Except ErrCode (List Byte × Nat) :=
  if e.length < 4 then .error .corruptStream
  else
    let n := le32 (e.take 4)
    match requireAtMost n (maxN + 1) with
    | .error e => .error e
    | .ok _ =>
      match requireAtMost n cap with
      | .error e => .error e
      | .ok _ => hufDec (e.drop 4) n

/-- `COMP` body (44_container.md R243). -/
def compBody : Body := fun c src len cap _aux =>
  match requireAtMost len c.maxN with
  | .error e => .error e
  | .ok _ =>
    let env := compress src
    match requireAtMost env.1.length cap with
    | .error e => .error e
    | .ok _ => .ok env

/-- `DECOMP` body (44_container.md R245). -/
def decompBody : Body := fun c src _len cap _aux => decompress c.maxN src cap

/-- `HCOMP` body (44_container.md R247). -/
def hcompBody : Body := fun c src len cap _aux =>
  match requireAtMost len (c.maxN + 1) with
  | .error e => .error e
  | .ok _ =>
    let env := hCompress src
    match requireAtMost env.1.length cap with
    | .error e => .error e
    | .ok _ => .ok env

/-- `HDECOMP` body (44_container.md R249). -/
def hdecompBody : Body := fun c src _len cap _aux => hDecompress c.maxN src cap

/-- The command `COMP` (44_container.md R243). -/
def execComp (s : State) : Host.Outcome State Fault Refusal := complete compBody s

/-- The command `DECOMP` (44_container.md R245). -/
def execDecomp (s : State) : Host.Outcome State Fault Refusal := complete decompBody s

/-- The command `HCOMP` (44_container.md R247). -/
def execHcomp (s : State) : Host.Outcome State Fault Refusal := complete hcompBody s

/-- The command `HDECOMP` (44_container.md R249). -/
def execHdecomp (s : State) : Host.Outcome State Fault Refusal := complete hdecompBody s

end Sys2Proof.Machine
end

