-- ==== Sys2Proof/Machine/Dispatch.lean ====
section
/-! DEFINITION. The meaning of each command: its completion step (10_state.md R32), on the latched operands. -/

namespace Sys2Proof.Machine

open Sys2Proof

def exec (i : Instr) (s : State) : Host.Outcome State Fault Refusal :=
  match i with
  | .bwtf => Sys2Proof.Machine.execBwtf s
  | .bwti => Sys2Proof.Machine.execBwti s
  | .mtfe => Sys2Proof.Machine.execMtfe s
  | .mtfd => Sys2Proof.Machine.execMtfd s
  | .hufe => Sys2Proof.Machine.execHufe s
  | .hufd => Sys2Proof.Machine.execHufd s
  | .comp => Sys2Proof.Machine.execComp s
  | .decomp => Sys2Proof.Machine.execDecomp s
  | .hcomp => Sys2Proof.Machine.execHcomp s
  | .hdecomp => Sys2Proof.Machine.execHdecomp s

end Sys2Proof.Machine
end

