-- ==== Sys2Proof/Machine/Agents.lean ====
section
/-! DEFINITION. The two agents (10_state.md R30) and their turns: the host's actions on the register window and on `M`,
and the engine's completion step. -/

namespace Sys2Proof.Machine

open Sys2Proof

/-- The engine's completion step (10_state.md R32, 30_encoding.md R99), which is enabled whenever `STATE = BUSY`: the
latched word is decoded and its command executed; an illegal word ends in `IllegalCommand` and touches nothing else
(30_encoding.md R93, 60_exceptions.md R276). In any other state the engine has no step to take. -/
def engineTurn (s : State) : Host.Outcome State Fault Refusal :=
  if s.busy then
    match decode s.latched.word with
    | .ok i => exec i s
    | .error _ => .next (errorEntry .illegalCommand s)
  else .next s

/-- A host access to the register window: aligned words only (20_memory.md R69, 93_implementation_defined.md U3). -/
def registerAccess (size : AccessSize) (off : Word) (k : State) : Host.Outcome State Fault Refusal :=
  if size ≠ .word then .refused .registerAccessSize
  else if off.toNat % 4 ≠ 0 then .refused .registerAccessMisaligned
  else .next k

/-- A host read of a byte of `M` (20_memory.md R61), refused in a destination region that is the engine's (R77). -/
def hostMemRead (a : Word) (s : State) : Host.Outcome State Fault Refusal :=
  if a.toNat ≥ s.cfg.memBytes then .fault .noSuchAddress
  else if s.held.any (fun l => l.forbidsRead a.toNat) then .refused .heldRegion
  else .next (observe ((Memory.byteAt s.mem a.toNat).setWidth 32) s)

/-- A host write of a byte of `M` (20_memory.md R61), refused in either region that is the engine's (R77). -/
def hostMemWrite (a : Word) (b : Byte) (s : State) : Host.Outcome State Fault Refusal :=
  if a.toNat ≥ s.cfg.memBytes then .fault .noSuchAddress
  else if s.held.any (fun l => l.forbidsWrite a.toNat) then .refused .heldRegion
  else .next { s with mem := Memory.setByte s.mem a.toNat b }

/-- What a host action does to the block. `WAIT` stands here for its last `STATUS` read, the one that ends the poll. -/
def hostTurn (a : HostAction) (s : State) : Host.Outcome State Fault Refusal :=
  match a with
  | .regRead size off => registerAccess size off (readRegister off s)
  | .regWrite size off v => registerAccess size off (writeOffset off v s)
  | .memRead addr => hostMemRead addr s
  | .memWrite addr b => hostMemWrite addr b s
  | .wait => .next (readRegister Reg.status.offset s)
  | .reset => .next (resetEvent s)

/-- One turn of the machine. The agenda says whose move it is (log 5); a `WAIT` that finds the engine `BUSY` keeps
polling while the engine completes; with nothing on the agenda a `BUSY` engine completes (70_reset_and_hazards.md R331,
93_implementation_defined.md U11) and otherwise nothing happens. -/
def takeTurn (s : State) : Host.Outcome State Fault Refusal :=
  match s.agenda with
  | [] => engineTurn s
  | .engine :: rest => engineTurn { s with agenda := rest }
  | .host .wait :: rest => if s.busy then engineTurn s else hostTurn .wait { s with agenda := rest }
  | .host a :: rest => hostTurn a { s with agenda := rest }

/-- The state in which a command word has just been issued and the engine moves next: what the host's `CMD` write does
(10_state.md R31), whatever the engine was doing, with nothing else on the agenda (log 11). -/
def issuedAlone (w : Word) (s : State) : State := { issue w s with agenda := [] }

end Sys2Proof.Machine
end

