-- ==== Sys2Proof/Machine/Step.lean ====
section
/-! DEFINITION. One step of the machine: one turn of one agent (10_state.md R30). -/

namespace Sys2Proof.Machine

open Sys2Proof

/-- One step: the turn `takeTurn` gives. -/
def step (s : State) : Host.Outcome State Fault Refusal := takeTurn s

/-- The state whose very next step runs the command with this word: the word has been issued (10_state.md R31) and the
engine moves next. The block fetches nothing (10_state.md R33); the command word it executes is the latched `CMD` word,
so that is where the word goes (log 11). -/
def State.withFetchWord (s : State) (nbits w : Nat) : State := issuedAlone (BitVec.ofNat 32 (w % 2 ^ nbits)) s

end Sys2Proof.Machine
end

