-- ==== Sys2Proof/Machine/Instances.lean ====
section
/-! DEFINITION. Several instances of the block (20_memory.md R80, 60_exceptions.md R294): each has its own registers and
its own engine, and they share only `M`. The machine of `Sys2Proof.core` is one instance, which is "a complete model of
the block" (93_implementation_defined.md U14); this file puts `NUM_INSTANCES` of them beside one memory. -/

namespace Sys2Proof.Machine

open Sys2Proof

/-- The instances and the memory they share. Each block's own `mem` field is kept empty: its memory is `shared`. Which
instance moves next is the list `order`, next first (log 13). -/
structure Instances where
  shared : Memory
  blocks : List State
  order : List Nat
  deriving DecidableEq, Repr

/-- Two regions share an address. -/
def regionsMeet (a n b m : Word) : Bool :=
  decide (a.toNat < b.toNat + m.toNat) && decide (b.toNat < a.toNat + n.toNat) && decide (0 < n.toNat) &&
    decide (0 < m.toNat)

/-- The destination region of one command overlaps a region of the other (20_memory.md R80). -/
def commandsConflict (p q : Latched) : Bool :=
  regionsMeet p.dst p.cap q.src q.len || regionsMeet p.dst p.cap q.dst q.cap || regionsMeet q.dst q.cap p.src p.len

/-- The host's next action touches a region that another instance's command holds (20_memory.md R77). -/
def touchesHeld (b o : State) : Bool :=
  match b.agenda with
  | .host (.memRead a) :: _ => o.held.any fun l => l.forbidsRead a.toNat
  | .host (.memWrite a _) :: _ => o.held.any fun l => l.forbidsWrite a.toNat
  | _ => false

/-- The instances other than the one at an index. -/
def otherBlocks (y : Instances) (k : Nat) : List State := y.blocks.eraseIdx k

/-- One step of the instance at an index, on the shared memory; the other instances do not change. -/
def stepInstance (k : Nat) (y : Instances) : Host.Outcome Instances Fault Refusal :=
  match y.blocks[k]? with
  | none => .next y
  | some b =>
    if b.busy && (otherBlocks y k).any (fun o => o.busy && commandsConflict b.latched o.latched) then
      .refused .instanceRegions
    else if (otherBlocks y k).any (touchesHeld b) then .refused .heldRegion
    else
      match step { b with mem := y.shared } with
      | .next t => .next { y with shared := t.mem, blocks := y.blocks.set k { t with mem := [] } }
      | .fault f => .fault f
      | .refused r => .refused r

/-- One step of all: the instance that `order` names moves; with nothing in `order` nothing moves. -/
def stepInstances (y : Instances) : Host.Outcome Instances Fault Refusal :=
  match y.order with
  | [] => .next y
  | k :: rest => stepInstance k { y with order := rest }

/-- `n` instances after reset, all in the same reset state (60_exceptions.md R294), over an unwritten memory. -/
def resetInstances (c : Config) (n : Nat) : Instances :=
  { shared := [], blocks := List.replicate n (State.resetWith c), order := [] }

end Sys2Proof.Machine
end

