-- ==== Sys2Proof/Machine/Listing.lean ====
section
/-! DEFINITION. Host listings (30_encoding.md R100 to R102): the lines of a program as data, the reading of their text,
and the host actions and register writes each stands for. A listing is host state, not block state (10_state.md R33); it reaches the machine as
turns on its agenda. -/

namespace Sys2Proof.Machine

open Sys2Proof

/-- A line of a listing (30_encoding.md R100, R101). -/
inductive Line where
  /-- `MNEMONIC src, len, dst, cap, aux`. -/
  | command (i : Instr) (src len dst cap aux : Word)
  /-- A raw word written to `CMD`, then `WAIT` (95_test_vectors.md program P4). -/
  | writeCmd (w : Word)
  /-- `WAIT`. -/
  | wait
  /-- `STORE addr, b0 b1 ...`. -/
  | store (addr : Word) (bytes : List Byte)
  /-- `EXPECT_DONE rlen, raux`. -/
  | expectDone (rlen raux : Word)
  /-- `EXPECT_ERROR code`. -/
  | expectError (code : BitVec 4)
  deriving DecidableEq, Repr

/-- A host write of a whole register. -/
def writeReg (r : Reg) (v : Word) : HostAction := .regWrite .word r.offset v

/-- A host read of a whole register. -/
def readReg (r : Reg) : HostAction := .regRead .word r.offset

/-- The register writes a line encodes to, as (offset, value) pairs (30_encoding.md R101, R102). -/
def lineWrites : Line → List (Word × Word)
  | .command i src len dst cap aux =>
    [(0x08, src), (0x0C, len), (0x10, dst), (0x14, cap), (0x18, aux), (0x00, encode i)]
  | .writeCmd w => [(0x00, w)]
  | .wait => []
  | .store _ _ => []
  | .expectDone _ _ => []
  | .expectError _ => []

/-- The byte writes of a `STORE` (30_encoding.md R101). -/
def storeActions (addr : Word) : List Byte → List HostAction
  | [] => []
  | b :: rest => .memWrite addr b :: storeActions (addr + 1) rest

/-- The host actions of a line, in order (30_encoding.md R101). -/
def lineActions : Line → List HostAction
  | .command i src len dst cap aux =>
    [writeReg .src src, writeReg .len len, writeReg .dst dst, writeReg .cap cap, writeReg .aux aux,
      writeReg .cmd (encode i), .wait]
  | .writeCmd w => [writeReg .cmd w, .wait]
  | .wait => [.wait]
  | .store addr bytes => storeActions addr bytes
  | .expectDone _ _ => [readReg .status, readReg .rlen, readReg .raux]
  | .expectError _ => [readReg .status, readReg .rlen, readReg .raux]

/-- What the reads of an `EXPECT` line must return, newest first as `seen` has them (30_encoding.md R101). -/
def lineExpects : Line → Option (List Word)
  | .expectDone rlen raux => some [raux, rlen, Status.word { state := .done, err := 0 }]
  | .expectError code => some [0, 0, Status.word { state := .error, err := code }]
  | .command _ _ _ _ _ _ => none
  | .writeCmd _ => none
  | .wait => none
  | .store _ _ => none

/-- A listing on the agenda, executed top to bottom (30_encoding.md R100). -/
def listingTurns (p : List Line) : List Turn := (p.flatMap lineActions).map Turn.host

/-! ### The text of a listing -/

/-- The value of a digit, decimal or hexadecimal. -/
def digitValue (c : Char) : Option Nat :=
  if 48 ≤ c.toNat ∧ c.toNat ≤ 57 then some (c.toNat - 48)
  else if 65 ≤ c.toNat ∧ c.toNat ≤ 70 then some (c.toNat - 55)
  else if 97 ≤ c.toNat ∧ c.toNat ≤ 102 then some (c.toNat - 87)
  else none

/-- A row of digits in a base, after the value read so far. -/
def digitsValue (base : Nat) : List Char → Nat → Option Nat
  | [], acc => some acc
  | c :: rest, acc =>
    match digitValue c with
    | some d => if d < base then digitsValue base rest (acc * base + d) else none
    | none => none

/-- A number of a listing, decimal or `0x` hexadecimal (30_encoding.md R100). -/
def numberValue : List Char → Option Nat
  | [] => none
  | '0' :: 'x' :: d :: rest => digitsValue 16 (d :: rest) 0
  | d :: rest => digitsValue 10 (d :: rest) 0

/-- A number that must be below a bound. -/
def numberBelow (bound : Nat) (cs : List Char) : Option Nat :=
  match numberValue cs with
  | some n => if n < bound then some n else none
  | none => none

/-- A number 0 to `2^32 - 1` (30_encoding.md R100). -/
def wordToken (cs : List Char) : Option Word := (numberBelow (2 ^ 32) cs).map (BitVec.ofNat 32)

/-- A byte of a `STORE`, as two hexadecimal digits (00_scope.md R7). -/
def byteToken : List Char → Option Byte
  | [a, b] => (digitsValue 16 [a, b] 0).map (BitVec.ofNat 8)
  | _ => none

/-- The bytes of a `STORE`. -/
def byteTokens : List (List Char) → Option (List Byte)
  | [] => some []
  | w :: rest =>
    match byteToken w, byteTokens rest with
    | some b, some bs => some (b :: bs)
    | _, _ => none

/-- A word that has ended joins the tokens; an empty one does not. -/
def pushToken (word : List Char) (rest : List (List Char)) : List (List Char) :=
  if word = [] then rest else word :: rest

/-- The tokens of a line, after the word read so far: words without spaces, and commas. A `;` ends the line
(30_encoding.md R100). -/
def lineTokens : List Char → List Char → List (List Char)
  | [], word => pushToken word []
  | c :: rest, word =>
    if c = ';' then pushToken word []
    else if c = ',' then pushToken word ([','] :: lineTokens rest [])
    else if c = ' ' ∨ c = '\t' ∨ c = '\r' then pushToken word (lineTokens rest [])
    else lineTokens rest (word ++ [c])

/-- The mnemonics in capitals (30_encoding.md R91, R100). -/
def mnemonicTexts : List (List Char × Instr) :=
  [ (['B', 'W', 'T', 'F'], .bwtf),
    (['B', 'W', 'T', 'I'], .bwti),
    (['M', 'T', 'F', 'E'], .mtfe),
    (['M', 'T', 'F', 'D'], .mtfd),
    (['H', 'U', 'F', 'E'], .hufe),
    (['H', 'U', 'F', 'D'], .hufd),
    (['C', 'O', 'M', 'P'], .comp),
    (['D', 'E', 'C', 'O', 'M', 'P'], .decomp),
    (['H', 'C', 'O', 'M', 'P'], .hcomp),
    (['H', 'D', 'E', 'C', 'O', 'M', 'P'], .hdecomp) ]

/-- Numbers separated by commas. -/
def numberList : List (List Char) → Option (List Word)
  | [] => none
  | [w] => (wordToken w).map fun v => [v]
  | w :: comma :: rest =>
    match wordToken w, numberList rest with
    | some v, some vs => if comma = [','] then some (v :: vs) else none
    | _, _ => none

/-- The operands of a command line; `aux` left out means 0 (30_encoding.md R100). -/
def commandLine (i : Instr) (operands : List (List Char)) : Option Line :=
  match numberList operands with
  | some [s, l, d, c] => some (.command i s l d c 0)
  | some [s, l, d, c, a] => some (.command i s l d c a)
  | _ => none

/-- A `STORE` whose bytes all have an address of 32 bits. -/
def storeLine : List (List Char) → Option Line
  | addr :: comma :: bytes =>
    match wordToken addr, byteTokens bytes with
    | some a, some bs => if comma = [','] ∧ a.toNat + bs.length ≤ 2 ^ 32 then some (.store a bs) else none
    | _, _ => none
  | _ => none

/-- `EXPECT_DONE rlen, raux`. -/
def expectDoneLine (operands : List (List Char)) : Option Line :=
  match numberList operands with
  | some [r, x] => some (.expectDone r x)
  | _ => none

/-- `EXPECT_ERROR code`. -/
def expectErrorLine : List (List Char) → Option Line
  | [code] => (numberBelow 16 code).map fun c => .expectError (BitVec.ofNat 4 c)
  | _ => none

/-- `write CMD <- w`, as 95_test_vectors.md program P4 spells it. -/
def writeCmdLine : List (List Char) → Option Line
  | [reg, arrow, w] => if reg = ['C', 'M', 'D'] ∧ arrow = ['<', '-'] then (wordToken w).map .writeCmd else none
  | _ => none

/-- The line that a row of tokens spells (30_encoding.md R100, R101), if it spells one. -/
def lineOfTokens : List (List Char) → Option Line
  | [] => none
  | name :: operands =>
    if name = ['W', 'A', 'I', 'T'] then (if operands = [] then some .wait else none)
    else if name = ['S', 'T', 'O', 'R', 'E'] then storeLine operands
    else if name = ['E', 'X', 'P', 'E', 'C', 'T', '_', 'D', 'O', 'N', 'E'] then expectDoneLine operands
    else if name = ['E', 'X', 'P', 'E', 'C', 'T', '_', 'E', 'R', 'R', 'O', 'R'] then expectErrorLine operands
    else if name = ['w', 'r', 'i', 't', 'e'] then writeCmdLine operands
    else
      match mnemonicTexts.find? fun m => m.1 = name with
      | some m => commandLine m.2 operands
      | none => none

/-- The lines of a text, cut at line ends, after the characters read so far. -/
def textLines : List Char → List Char → List (List Char)
  | [], line => [line]
  | c :: rest, line => if c = '\n' then line :: textLines rest [] else textLines rest (line ++ [c])

/-- The lines that rows of characters spell; one without tokens (blank, or only a comment) spells none. -/
def linesOfRows : List (List Char) → Option (List Line)
  | [] => some []
  | row :: rest =>
    match lineTokens row [], linesOfRows rest with
    | [], ls => ls
    | tokens, some ls => (lineOfTokens tokens).map fun l => l :: ls
    | _, none => none

/-- Read the text of a listing (30_encoding.md R100, log 20). -/
def readListing (text : List Char) : Option (List Line) := linesOfRows (textLines text [])

end Sys2Proof.Machine
end

