-- ==== Sys2Proof/Safety.lean ====
section
/-! DEFINITION. What counts as a legal state and a legal host action, and the shapes in which statements say what a
command does: completion with a result and its frame, and error entry. -/

namespace Sys2Proof.Machine

open Sys2Proof

/-- The invariant of the block: what 10_state.md R25 says of the registers, and what the model keeps beside it. -/
structure Inv (s : State) : Prop where
  /-- The parameters are in their ranges (00_scope.md R6). -/
  cfgOk : s.cfg.wf = true
  /-- `M` is in canonical form. -/
  memWf : Memory.wf s.mem
  /-- Only addresses that exist have been written (20_memory.md R60). -/
  memInside : ∀ c ∈ s.mem, c.1 < s.cfg.memBytes
  /-- `ERR != 0` exactly when `STATE = ERROR` (10_state.md R25). -/
  errExact : s.status.err ≠ 0 ↔ s.status.state = .error
  /-- `ERR` 7 to 15 are never produced (60_exceptions.md R270). -/
  errKnown : s.status.err.toNat ≤ 6
  /-- `RLEN = RAUX = 0` whenever `STATE` is `IDLE`, `BUSY` or `ERROR` (10_state.md R25). -/
  noResult : s.status.state ≠ .done → s.rlen = 0 ∧ s.raux = 0
  /-- `IDLE`: no command has been issued since reset (10_state.md R25). -/
  idleCmd : s.status.state = .idle → s.cmd = 0
  /-- `CMD` holds the last word issued (10_state.md R23, R31). -/
  cmdLatched : s.status.state ≠ .idle → s.cmd = s.latched.word
  /-- While `BUSY` the operand registers are what was latched (10_state.md R27, R31). -/
  busyLatched : s.status.state = .busy → s.latched = ⟨s.cmd, s.src, s.len, s.dst, s.cap, s.aux⟩
  /-- While `BUSY` the command's regions are the engine's (20_memory.md R77). -/
  busyHeld : s.status.state = .busy → s.latched ∈ s.held
  /-- `DONE`: the command was legal (30_encoding.md R93). -/
  doneLegal : s.status.state = .done → wordLegal s.cmd = true
  /-- `DONE`: the result fits the capacity (20_memory.md R65). -/
  doneFits : s.status.state = .done → s.rlen.toNat ≤ s.latched.cap.toNat

/-- A host action the spec gives no meaning or forbids in this state: a sub-word or misaligned register access
(20_memory.md R69), a byte of `M` that does not exist (R60), a region that is the engine's (R77). -/
def Forbidden (s : State) : HostAction → Prop
  | .regRead size off => size ≠ .word ∨ off.toNat % 4 ≠ 0
  | .regWrite size off _ => size ≠ .word ∨ off.toNat % 4 ≠ 0
  | .memRead a =>
    s.cfg.memBytes ≤ a.toNat ∨ ∃ l ∈ s.held, l.dst.toNat ≤ a.toNat ∧ a.toNat < l.dst.toNat + l.cap.toNat
  | .memWrite a _ =>
    s.cfg.memBytes ≤ a.toNat ∨
      ∃ l ∈ s.held,
        (l.src.toNat ≤ a.toNat ∧ a.toNat < l.src.toNat + l.len.toNat) ∨
          (l.dst.toNat ≤ a.toNat ∧ a.toNat < l.dst.toNat + l.cap.toNat)
  | .wait => False
  | .reset => False

/-- The region check of the latched operands passes (20_memory.md R71). -/
abbrev RegionsOk (s : State) : Prop :=
  s.latched.src.toNat + s.latched.len.toNat ≤ s.cfg.memBytes ∧
    s.latched.dst.toNat + s.latched.cap.toNat ≤ s.cfg.memBytes ∧
      ¬ (0 < s.latched.len.toNat ∧ 0 < s.latched.cap.toNat ∧
          s.latched.src.toNat < s.latched.dst.toNat + s.latched.cap.toNat ∧
            s.latched.dst.toNat < s.latched.src.toNat + s.latched.len.toNat)

/-- The command completes with a result (10_state.md R32, 20_memory.md R65): `DONE`, `ERR` as it was, `RLEN` the length
of `out`, `RAUX` as given, `out` in the destination region, every other byte of `M` as it was, and nothing else of the
state changed (no operand register, not `CMD`, not the parameters). -/
def CompletesWith (i : Instr) (s : State) (out : List Byte) (raux : Nat) : Prop :=
  ∃ t, exec i s = .next t ∧
    t = { s with mem := t.mem, rlen := t.rlen, raux := t.raux, status := t.status } ∧
    t.status = { state := .done, err := s.status.err } ∧
    t.rlen.toNat = out.length ∧ t.raux.toNat = raux ∧
    (∀ k, k < out.length → Memory.byteAt t.mem (s.latched.dst.toNat + k) = out.getD k 0) ∧
    (∀ a, a < s.latched.dst.toNat ∨ s.latched.dst.toNat + out.length ≤ a →
      Memory.byteAt t.mem a = Memory.byteAt s.mem a)

/-- The command ends in error entry with a code (60_exceptions.md R280): nothing changes but `STATUS`, `RLEN`, `RAUX`. -/
def FailsWith (i : Instr) (s : State) (code : BitVec 4) : Prop :=
  exec i s = .next { s with status := { state := .error, err := code }, rlen := 0, raux := 0 }

/-- The suffix at `a` is less than the suffix at `b`: at the first position where they differ, its ordinal is the
smaller (40_bwt.md R112). -/
def SuffixLess (s : List Sym) (a b : Nat) : Prop :=
  ∃ k p q, (∀ j, j < k → s[a + j]? = s[b + j]?) ∧ s[a + k]? = some p ∧ s[b + k]? = some q ∧ p.ord < q.ord

/-- The original size field of an envelope (44_container.md R240). -/
def envelopeSize (e : List Byte) : Nat := le32 (e.take 4)

/-- The sentinel index field of a full envelope (44_container.md R240). -/
def envelopeIndex (e : List Byte) : Nat := le32 ((e.drop 4).take 4)

/-- The causes of `AllocationError`, command by command (60_exceptions.md R272). -/
def AllocationCause (i : Instr) (s : State) : Prop :=
  let x := sourceBytes s
  let len := s.latched.len.toNat
  let cap := s.latched.cap.toNat
  let aux := s.latched.aux.toNat
  match i with
  | .bwtf => len > s.cfg.maxN ∨ len + 1 > cap
  | .bwti => len > s.cfg.maxN + 1 ∨ len > cap
  | .mtfe => len > s.cfg.maxN + 1 ∨ len > cap
  | .mtfd => len > s.cfg.maxN + 1 ∨ len > cap
  | .hufe => len > s.cfg.maxN + 1 ∨ (hufEnc x).1.length > cap
  | .hufd => aux > s.cfg.maxN + 1 ∨ aux > cap
  | .comp => len > s.cfg.maxN ∨ (compress x).1.length > cap
  | .decomp => 8 ≤ len ∧ (envelopeSize x > s.cfg.maxN ∨ envelopeSize x > cap)
  | .hcomp => len > s.cfg.maxN + 1 ∨ (hCompress x).1.length > cap
  | .hdecomp => 4 ≤ len ∧ (envelopeSize x > s.cfg.maxN + 1 ∨ envelopeSize x > cap)

/-- The error codes a legal command can report (60_exceptions.md R278). -/
def possibleErrors : Instr → List (BitVec 4)
  | .bwtf => [1, 6]
  | .bwti => [1, 3, 6]
  | .mtfe => [1, 6]
  | .mtfd => [1, 6]
  | .hufe => [1, 6]
  | .hufd => [1, 2, 3, 4, 6]
  | .comp => [1, 6]
  | .decomp => [1, 2, 3, 4, 6]
  | .hcomp => [1, 6]
  | .hdecomp => [1, 2, 3, 4, 6]

end Sys2Proof.Machine
end

