-- ==== Sys2Proof/Certificates/Slice0/Obligations.lean ====
section
/-! DEFINITION. The statements for the provers. Each docstring names the rule of spec/ it formalises; where a clause is
the model's own choice, it names the log entry. -/

open Sys2Proof
open Sys2Proof.Machine

/-! ### Command words -/

/-- The ten words of 30_encoding.md R91 decode to their commands, and illegal words (R93) are rejected by reason. -/
def Obligations.TenWordsDecodeToTheirCommands : Prop :=
  decode 0x00000001 = .ok .bwtf ∧ decode 0x00000002 = .ok .bwti ∧ decode 0x00000003 = .ok .mtfe ∧
    decode 0x00000004 = .ok .mtfd ∧ decode 0x00000005 = .ok .hufe ∧ decode 0x00000006 = .ok .hufd ∧
    decode 0x00000007 = .ok .comp ∧ decode 0x00000008 = .ok .decomp ∧ decode 0x00000009 = .ok .hcomp ∧
    decode 0x0000000A = .ok .hdecomp ∧ decode 0x00000000 = .error .reservedOpcode ∧
    decode 0x0000000B = .error .reservedOpcode ∧ decode 0x00000101 = .error .reservedBits ∧
    decode 0x80000003 = .error .reservedBits

/-- 30_encoding.md R94 (with R93): of the eleven outcomes exactly one applies to any word. A word decodes to a command
just when it is that command's word, no two rows select it, and it is illegal just when `RSV != 0`, or `OPC = 0x00`, or
`OPC > 0x0A`. -/
def Obligations.EveryWordSelectsOneRowOrIsIllegal : Prop :=
  ∀ w : Word,
    (∀ i, decode w = .ok i ↔ w = encode i) ∧
    (∀ r q, r ∈ opcodeTable → q ∈ opcodeTable → w &&& r.mask = r.pattern → w &&& q.mask = q.pattern → r = q) ∧
    (∀ i, decode w = .ok i ↔ ∃ r ∈ opcodeTable, w &&& r.mask = r.pattern ∧ r.instr = i) ∧
    ((∃ e, decode w = .error e) ↔ rsvField w ≠ 0 ∨ opcField w = 0x00 ∨ 0x0A < (opcField w).toNat)

/-! ### The register window -/

/-- 10_state.md R42: after reset every register holds 0, whatever the parameters. That every offset of the 32-bit offset
space reads 0, whatever the size of the window (R26), is the model's (log 18, DESIGN CHOICE), and so are the parameters
that `State.reset` carries (log 1, DESIGN CHOICE). -/
def Obligations.AfterResetEveryRegisterHoldsZero : Prop :=
  ∀ c : Config,
    (∀ r, (State.resetWith c).reg r = 0) ∧ (∀ off, readOffset (State.resetWith c) off = 0) ∧
      (State.resetWith c).status = { state := .idle, err := 0 } ∧ State.reset = State.resetWith Config.ofVectors

/-- 70_reset_and_hazards.md R311 (with R310, 10_state.md R43): reset, also while `BUSY`, leaves every register 0 and
`STATUS` at `IDLE`, and no byte of `M` changes. That reset is one event, that no region stays held, and that the
parameters, the agenda and the host's record stay is the model's (log 12, DESIGN CHOICE). -/
def Obligations.ResetAbandonsTheCommandAndKeepsMemory : Prop :=
  ∀ (s : State) (rest : List Turn), s.agenda = .host .reset :: rest →
    ∃ t, step s = .next t ∧ (∀ r, t.reg r = 0) ∧ t.status = { state := .idle, err := 0 } ∧
      (∀ a, Memory.byteAt t.mem a = Memory.byteAt s.mem a) ∧ t.mem = s.mem ∧ t.held = [] ∧ t.cfg = s.cfg ∧
      t.agenda = rest ∧ t.seen = s.seen

/-- 10_state.md R21: a host write to an operand register while not `BUSY` sets it, it reads back exactly, and nothing
else changes. `held`, `agenda` and `seen`, of which it speaks too, are the model's (log 4, log 6). -/
def Obligations.OperandRegisterHoldsWhatIsWritten : Prop :=
  ∀ (s : State) (r : Reg) (v : Word) (rest : List Turn),
    s.status.state ≠ .busy → r ∈ [Reg.src, Reg.len, Reg.dst, Reg.cap, Reg.aux] →
    s.agenda = .host (.regWrite .word r.offset v) :: rest →
    ∃ t, step s = .next t ∧ t.reg r = v ∧ readOffset t r.offset = v ∧ (∀ q, q ≠ r → t.reg q = s.reg q) ∧
      t.cfg = s.cfg ∧ t.latched = s.latched ∧ t.mem = s.mem ∧ t.held = s.held ∧ t.agenda = rest ∧ t.seen = s.seen

/-- 10_state.md R22, R24, R26, R27: a host write to a read-only register, to an offset outside the nine, or to any
register while `BUSY`, changes nothing. That this holds at every aligned offset of the 32-bit offset space, whatever the
size of the window of which R26 speaks, is the model's (log 18, DESIGN CHOICE, unsafe). -/
def Obligations.IgnoredRegisterWritesChangeNothing : Prop :=
  ∀ (s : State) (off v : Word) (rest : List Turn), off.toNat % 4 = 0 →
    (s.status.state = .busy ∨ off ∉ ([0x00, 0x08, 0x0C, 0x10, 0x14, 0x18] : List Word)) →
    s.agenda = .host (.regWrite .word off v) :: rest → step s = .next { s with agenda := rest }

/-- 10_state.md R21 to R24, R26; 20_memory.md R73, R76: a read returns the register, or 0 outside the nine, and has no
side effect on the block. So does the last `STATUS` read of a `WAIT` (30_encoding.md R101), the one it records (log 17,
DESIGN CHOICE). What a read does to `seen` and `held` is the model's bookkeeping (log 4, log 6), and that every aligned
offset of the 32-bit offset space outside the nine reads 0, whatever the size of the window of which R26 speaks, is the
model's (log 18, DESIGN CHOICE, unsafe). -/
def Obligations.RegisterReadReturnsTheValueWithoutSideEffect : Prop :=
  ∀ (s : State) (rest : List Turn),
    (∀ off : Word, off.toNat % 4 = 0 → s.agenda = .host (.regRead .word off) :: rest →
      ∃ v, step s = .next { s with
          agenda := rest
          seen := v :: s.seen
          held := if off = 0x04 ∧ (s.status.state = .done ∨ s.status.state = .error) then [] else s.held } ∧
        (∀ r : Reg, off = r.offset → v = s.reg r) ∧ ((∀ r : Reg, off ≠ r.offset) → v = 0)) ∧
    (s.status.state ≠ .busy → s.agenda = .host .wait :: rest →
      step s = .next { s with
        agenda := rest
        seen := s.reg .status :: s.seen
        held := if s.status.state = .done ∨ s.status.state = .error then [] else s.held })

/-- 10_state.md R24, R25: the fields of `STATUS` as the host reads it, with the values of `STATE`. -/
def Obligations.StatusWordHasItsFields : Prop :=
  ∀ (s : State) (st : EngineState) (e : BitVec 4), s.status = { state := st, err := e } →
    (s.reg .status).extractLsb' 0 2 =
        (match st with | .idle => 0#2 | .busy => 1#2 | .done => 2#2 | .error => 3#2) ∧
      (s.reg .status).extractLsb' 2 2 = 0 ∧ (s.reg .status).extractLsb' 4 4 = e ∧ (s.reg .status).extractLsb' 8 24 = 0

/-- 10_state.md R31: the issue step, from `IDLE`, `DONE` or `ERROR`, for any word. That the command joins the list
`held` is the model's bookkeeping of 70_reset_and_hazards.md R320 (log 6, DESIGN CHOICE). -/
def Obligations.CommandWriteIssuesTheCommand : Prop :=
  ∀ (s : State) (w : Word) (rest : List Turn), s.status.state ≠ .busy →
    s.agenda = .host (.regWrite .word 0x00 w) :: rest →
    step s = .next { s with
      cmd := w
      latched := { word := w, src := s.src, len := s.len, dst := s.dst, cap := s.cap, aux := s.aux }
      status := { state := .busy, err := 0 }
      rlen := 0
      raux := 0
      held := { word := w, src := s.src, len := s.len, dst := s.dst, cap := s.cap, aux := s.aux } :: s.held
      agenda := rest }

/-- 20_memory.md R69, 93_implementation_defined.md U3: a byte or halfword access, or one at an offset that is not a
multiple of 4, is refused, a read and a write alike. The names of the two refusals, and that an access that is both is
refused for its size, are the model's (log 7, DESIGN CHOICE). -/
def Obligations.SubWordOrMisalignedRegisterAccessIsRefused : Prop :=
  ∀ (s : State) (size : AccessSize) (off v : Word) (rest : List Turn),
    (s.agenda = .host (.regRead size off) :: rest ∨ s.agenda = .host (.regWrite size off v) :: rest) →
    (size ≠ .word → step s = .refused .registerAccessSize) ∧
      (size = .word → off.toNat % 4 ≠ 0 → step s = .refused .registerAccessMisaligned)

/-! ### The host and `M` -/

/-- 20_memory.md R61, R77; 93_implementation_defined.md U2; log 8 for the fault: a host read or write of a byte of `M`.
It faults where no byte exists, is refused in a region that is the engine's, and otherwise reads the byte, or sets that
byte and no other. -/
def Obligations.HostAccessToMemory : Prop :=
  ∀ (s : State) (a : Word) (b : Byte) (rest : List Turn),
    (s.agenda = .host (.memRead a) :: rest →
      (s.cfg.memBytes ≤ a.toNat → step s = .fault .noSuchAddress) ∧
      (a.toNat < s.cfg.memBytes →
        (∃ l ∈ s.held, l.dst.toNat ≤ a.toNat ∧ a.toNat < l.dst.toNat + l.cap.toNat) →
        step s = .refused .heldRegion) ∧
      (a.toNat < s.cfg.memBytes →
        (∀ l ∈ s.held, ¬ (l.dst.toNat ≤ a.toNat ∧ a.toNat < l.dst.toNat + l.cap.toNat)) →
        step s = .next { s with agenda := rest, seen := (Memory.byteAt s.mem a.toNat).setWidth 32 :: s.seen })) ∧
    (s.agenda = .host (.memWrite a b) :: rest →
      (s.cfg.memBytes ≤ a.toNat → step s = .fault .noSuchAddress) ∧
      (a.toNat < s.cfg.memBytes →
        (∃ l ∈ s.held, (l.src.toNat ≤ a.toNat ∧ a.toNat < l.src.toNat + l.len.toNat) ∨
          (l.dst.toNat ≤ a.toNat ∧ a.toNat < l.dst.toNat + l.cap.toNat)) →
        step s = .refused .heldRegion) ∧
      (a.toNat < s.cfg.memBytes →
        (∀ l ∈ s.held, ¬ ((l.src.toNat ≤ a.toNat ∧ a.toNat < l.src.toNat + l.len.toNat) ∨
          (l.dst.toNat ≤ a.toNat ∧ a.toNat < l.dst.toNat + l.cap.toNat))) →
        ∃ t, step s = .next t ∧ t = { s with agenda := rest, mem := t.mem } ∧
          ∀ x, Memory.byteAt t.mem x = if x = a.toNat then b else Memory.byteAt s.mem x))

/-- 70_reset_and_hazards.md R320, 20_memory.md R76 (log 6): a command's regions stay held until a `STATUS` read returns
`DONE` or `ERROR`, or reset. -/
def Obligations.RegionsStayHeldUntilCompletionIsSeen : Prop :=
  ∀ s t : State, step s = .next t →
    (∀ l ∈ s.held, l ∈ t.held) ∨ (∃ rest, s.agenda = .host .reset :: rest) ∨
      ((s.status.state = .done ∨ s.status.state = .error) ∧
        ∃ rest, s.agenda = .host .wait :: rest ∨ s.agenda = .host (.regRead .word 0x04) :: rest)

/-! ### The engine -/

/-- 10_state.md R32, 30_encoding.md R99: when the engine is `BUSY` with a legal word and the turn is its own, the step is
`exec` of the decoded command. The three ways the turn comes to it are the model's agenda (log 5). -/
def Obligations.StepRunsTheDecodedCommand : Prop :=
  ∀ (s : State) (i : Instr), s.status.state = .busy → decode s.latched.word = .ok i →
    (s.agenda = [] → step s = exec i s) ∧
    (∀ rest, s.agenda = .engine :: rest → step s = exec i { s with agenda := rest }) ∧
    (∀ rest, s.agenda = .host .wait :: rest → step s = exec i s)

/-- 60_exceptions.md R276 (30_encoding.md R93): an illegal word ends in `IllegalCommand`, whatever the operands and the
contents of `M`, and nothing else changes. The three ways the turn comes to the engine (nothing on the agenda, its own
turn, a `WAIT`) are the model's agenda (log 5, DESIGN CHOICE). -/
def Obligations.IllegalWordEndsInIllegalCommand : Prop :=
  ∀ s : State, s.status.state = .busy →
    (rsvField s.latched.word ≠ 0 ∨ opcField s.latched.word = 0x00 ∨ 0x0A < (opcField s.latched.word).toNat) →
    (s.agenda = [] → step s = .next { s with status := { state := .error, err := 5 }, rlen := 0, raux := 0 }) ∧
    (∀ rest, s.agenda = .engine :: rest →
      step s = .next { s with status := { state := .error, err := 5 }, rlen := 0, raux := 0, agenda := rest }) ∧
    (∀ rest, s.agenda = .host .wait :: rest →
      step s = .next { s with status := { state := .error, err := 5 }, rlen := 0, raux := 0 })

/-- 60_exceptions.md R277 (20_memory.md R71): any legal command whose regions lie outside `M` or overlap ends in
`OperandError`, and no other does. -/
def Obligations.OperandErrorExactlyWhenTheRegionsAreBad : Prop :=
  ∀ (i : Instr) (s : State), (¬ RegionsOk s → FailsWith i s 6) ∧ (RegionsOk s → ¬ FailsWith i s 6)

/-- 40_bwt.md R118: `BWTF` completes with the BWT output and the sentinel index; its frame is in `CompletesWith`. -/
def Obligations.BwtfCompletesWithTheTransform : Prop :=
  ∀ s : State, RegionsOk s → s.latched.len.toNat ≤ s.cfg.maxN → s.latched.len.toNat + 1 ≤ s.latched.cap.toNat →
    CompletesWith .bwtf s (bwtFwd (sourceBytes s)).1 (bwtFwd (sourceBytes s)).2 ∧
      (bwtFwd (sourceBytes s)).1.length = s.latched.len.toNat + 1

/-- 40_bwt.md R124: `BWTI` completes with the inverse walk's buffer and its final row, for any `T` and any `AUX` below
`LEN`, whether or not they are a BWT output (R125). -/
def Obligations.BwtiCompletesWithTheWalk : Prop :=
  ∀ s : State, RegionsOk s → s.latched.len.toNat ≤ s.cfg.maxN + 1 → s.latched.len.toNat ≤ s.latched.cap.toNat →
    s.latched.aux.toNat < s.latched.len.toNat →
    CompletesWith .bwti s (bwtInv (sourceBytes s) s.latched.aux.toNat).1 (bwtInv (sourceBytes s) s.latched.aux.toNat).2 ∧
      (bwtInv (sourceBytes s) s.latched.aux.toNat).1.length = s.latched.len.toNat

/-- 41_mtf.md R145: `MTFE` completes with the index buffer, `RLEN = LEN`, `RAUX = 0`. -/
def Obligations.MtfeCompletesWithTheIndexBuffer : Prop :=
  ∀ s : State, RegionsOk s → s.latched.len.toNat ≤ s.cfg.maxN + 1 → s.latched.len.toNat ≤ s.latched.cap.toNat →
    CompletesWith .mtfe s (mtfEnc (sourceBytes s)) 0 ∧ (mtfEnc (sourceBytes s)).length = s.latched.len.toNat

/-- 41_mtf.md R146: `MTFD` completes with the decoded bytes, `RLEN = LEN`, `RAUX = 0`. -/
def Obligations.MtfdCompletesWithTheBytes : Prop :=
  ∀ s : State, RegionsOk s → s.latched.len.toNat ≤ s.cfg.maxN + 1 → s.latched.len.toNat ≤ s.latched.cap.toNat →
    CompletesWith .mtfd s (mtfDec (sourceBytes s)) 0 ∧ (mtfDec (sourceBytes s)).length = s.latched.len.toNat

/-- 43_bitstream.md R212: `HUFE` completes with tree bytes and payload, `RAUX` the length of the tree bytes. -/
def Obligations.HufeCompletesWithTreeAndPayload : Prop :=
  ∀ s : State, RegionsOk s → s.latched.len.toNat ≤ s.cfg.maxN + 1 →
    (hufEnc (sourceBytes s)).1.length ≤ s.latched.cap.toNat →
    CompletesWith .hufe s (hufEnc (sourceBytes s)).1 (hufEnc (sourceBytes s)).2

/-- 43_bitstream.md R213, R211: `HUFD` completes with the decoded symbols, as many as `AUX` says, or ends in the error
the decoder meets first. -/
def Obligations.HufdCompletesWithTheSymbols : Prop :=
  ∀ s : State, RegionsOk s → s.latched.aux.toNat ≤ s.cfg.maxN + 1 → s.latched.aux.toNat ≤ s.latched.cap.toNat →
    (∀ out tlen, hufDec (sourceBytes s) s.latched.aux.toNat = .ok (out, tlen) →
      CompletesWith .hufd s out tlen ∧ out.length = s.latched.aux.toNat) ∧
    (∀ e, hufDec (sourceBytes s) s.latched.aux.toNat = .error e → FailsWith .hufd s e.code)

/-- 44_container.md R243: `COMP` completes with the full envelope, `RAUX` the sentinel index. -/
def Obligations.CompCompletesWithTheEnvelope : Prop :=
  ∀ s : State, RegionsOk s → s.latched.len.toNat ≤ s.cfg.maxN →
    (compress (sourceBytes s)).1.length ≤ s.latched.cap.toNat →
    CompletesWith .comp s (compress (sourceBytes s)).1 (bwtFwd (sourceBytes s)).2

/-- 44_container.md R244, R245: `DECOMP` of a header in range completes with the original bytes, as many as the size
field says, and `RAUX` the stored index, when the Huffman stage accepts the rest; else it ends in that stage's error. -/
def Obligations.DecompCompletesWithTheOriginalBytes : Prop :=
  ∀ s : State, RegionsOk s → 8 ≤ s.latched.len.toNat → envelopeSize (sourceBytes s) ≤ s.cfg.maxN →
    envelopeSize (sourceBytes s) ≤ s.latched.cap.toNat → envelopeIndex (sourceBytes s) ≤ envelopeSize (sourceBytes s) →
    (∀ z tlen, hufDec ((sourceBytes s).drop 8) (envelopeSize (sourceBytes s) + 1) = .ok (z, tlen) →
      CompletesWith .decomp s
        ((bwtInv (mtfDec z) (envelopeIndex (sourceBytes s))).1.take (envelopeSize (sourceBytes s)))
        (envelopeIndex (sourceBytes s)) ∧
      ((bwtInv (mtfDec z) (envelopeIndex (sourceBytes s))).1.take (envelopeSize (sourceBytes s))).length =
        envelopeSize (sourceBytes s)) ∧
    (∀ e, hufDec ((sourceBytes s).drop 8) (envelopeSize (sourceBytes s) + 1) = .error e → FailsWith .decomp s e.code)

/-- 44_container.md R246, R247: `HCOMP` completes with the size field, tree bytes and payload. -/
def Obligations.HcompCompletesWithTheEnvelope : Prop :=
  ∀ s : State, RegionsOk s → s.latched.len.toNat ≤ s.cfg.maxN + 1 →
    (hufEnc (sourceBytes s)).1.length + 4 ≤ s.latched.cap.toNat →
    CompletesWith .hcomp s (u32le s.latched.len.toNat ++ (hufEnc (sourceBytes s)).1) (hufEnc (sourceBytes s)).2

/-- 44_container.md R248, R249: `HDECOMP` completes with the original bytes, as many as the size field says, when the
Huffman stage accepts the rest; else it ends in that stage's error. -/
def Obligations.HdecompCompletesWithTheOriginalBytes : Prop :=
  ∀ s : State, RegionsOk s → 4 ≤ s.latched.len.toNat → envelopeSize (sourceBytes s) ≤ s.cfg.maxN + 1 →
    envelopeSize (sourceBytes s) ≤ s.latched.cap.toNat →
    (∀ out tlen, hufDec ((sourceBytes s).drop 4) (envelopeSize (sourceBytes s)) = .ok (out, tlen) →
      CompletesWith .hdecomp s out tlen ∧ out.length = envelopeSize (sourceBytes s)) ∧
    (∀ e, hufDec ((sourceBytes s).drop 4) (envelopeSize (sourceBytes s)) = .error e → FailsWith .hdecomp s e.code)

/-- 60_exceptions.md R272: the complete list of causes of `AllocationError`, command by command. -/
def Obligations.AllocationErrorExactlyOnItsCauses : Prop :=
  ∀ (i : Instr) (s : State), RegionsOk s → (FailsWith i s 1 ↔ AllocationCause i s)

/-- 60_exceptions.md R274, the rows about headers and the sentinel index, in the order of R279. -/
def Obligations.CorruptStreamFromHeaderOrIndex : Prop :=
  ∀ s : State, RegionsOk s →
    (s.latched.len.toNat < 8 → FailsWith .decomp s 3) ∧
    (s.latched.len.toNat < 4 → FailsWith .hdecomp s 3) ∧
    (8 ≤ s.latched.len.toNat → envelopeSize (sourceBytes s) ≤ s.cfg.maxN →
      envelopeSize (sourceBytes s) ≤ s.latched.cap.toNat →
      envelopeSize (sourceBytes s) < envelopeIndex (sourceBytes s) → FailsWith .decomp s 3) ∧
    (s.latched.len.toNat ≤ s.cfg.maxN + 1 → s.latched.len.toNat ≤ s.latched.cap.toNat →
      (FailsWith .bwti s 3 ↔ s.latched.len.toNat = 0 ∨ s.latched.len.toNat ≤ s.latched.aux.toNat))

/-- 60_exceptions.md R278: which command can report which error; no legal command reports `IllegalCommand`. -/
def Obligations.CommandsReportOnlyTheirErrors : Prop :=
  ∀ (i : Instr) (s t : State), exec i s = .next t → t.status.state = .error → t.status.err ∈ possibleErrors i

/-- 60_exceptions.md R280: error entry changes `STATUS`, `RLEN` and `RAUX` and nothing else, with a code 1 to 6. -/
def Obligations.ErrorEntryChangesOnlyStatusAndResults : Prop :=
  ∀ (i : Instr) (s t : State), exec i s = .next t → t.status.state = .error →
    t = { s with status := { state := .error, err := t.status.err }, rlen := 0, raux := 0 } ∧
      1 ≤ t.status.err.toNat ∧ t.status.err.toNat ≤ 6

/-- 10_state.md R21, R23; 20_memory.md R65, R70: the frame of every command, completed or failed. Only `M`, `RLEN`,
`RAUX` and `STATUS` may change; of `M` only the first `RLEN` bytes of the destination region, never the source. -/
def Obligations.CommandsChangeOnlyTheirDestination : Prop :=
  ∀ (i : Instr) (s t : State), exec i s = .next t →
    t = { s with mem := t.mem, rlen := t.rlen, raux := t.raux, status := t.status } ∧
    t.rlen.toNat ≤ s.latched.cap.toNat ∧
    (∀ a, a < s.latched.dst.toNat ∨ s.latched.dst.toNat + t.rlen.toNat ≤ a →
      Memory.byteAt t.mem a = Memory.byteAt s.mem a) ∧
    (∀ a, s.latched.src.toNat ≤ a → a < s.latched.src.toNat + s.latched.len.toNat →
      Memory.byteAt t.mem a = Memory.byteAt s.mem a)

/-- 70_reset_and_hazards.md R331: a `BUSY` block reaches `DONE` or `ERROR` (or is reset), at the latest one step after
the agenda is used up, unless the host stops the run first by an action the spec gives no meaning. -/
def Obligations.BusyBlockReachesCompletion : Prop :=
  ∀ s : State, s.status.state = .busy →
    ∃ k, k ≤ s.agenda.length + 1 ∧ ∃ u, Sys2Proof.core.run k s = .next u ∧
      (u.status.state ≠ .busy ∨ ∃ a rest, u.agenda = .host a :: rest ∧ Forbidden u a)

/-- 10_state.md R40: a command depends on the latched operands, the parameters and the source bytes alone, not on any
other byte of `M`, the other registers, or what ran before. -/
def Obligations.CommandIsAFunctionOfOperandsAndSource : Prop :=
  ∀ (i : Instr) (s u t v : State), s.cfg = u.cfg → s.latched = u.latched → s.status.err = u.status.err →
    (∀ a, s.latched.src.toNat ≤ a → a < s.latched.src.toNat + s.latched.len.toNat →
      Memory.byteAt s.mem a = Memory.byteAt u.mem a) →
    exec i s = .next t → exec i u = .next v →
    t.status = v.status ∧ t.rlen = v.rlen ∧ t.raux = v.raux ∧
      ∀ k, k < t.rlen.toNat →
        Memory.byteAt t.mem (s.latched.dst.toNat + k) = Memory.byteAt v.mem (s.latched.dst.toNat + k)

/-! ### The machine as a whole -/

/-- The invariant holds after reset, for parameters in range. The parameters that `State.reset` carries are the model's
(log 1), and so are the clauses of `Inv` on the form of `M` (log 2) and on `held` (log 6). -/
def Obligations.ResetSatisfiesTheInvariant : Prop :=
  (∀ c : Config, c.wf = true → Inv (State.resetWith c)) ∧ Inv State.reset

/-- 10_state.md R25 and the model's own clauses of `Inv` (the form of `M`, log 2; `held`, log 6): every step keeps the
invariant, from every state that has it, and keeps the parameters from any state (log 1). -/
def Obligations.EveryStepKeepsTheInvariant : Prop :=
  ∀ s t : State, step s = .next t → (Inv s → Inv t) ∧ t.cfg = s.cfg

/-- The machine stops exactly when the host's next action is one the spec gives no meaning (20_memory.md R69, R77; log 7,
log 6, log 8); the engine never stops it. -/
def Obligations.StopsExactlyOnForbiddenHostActions : Prop :=
  ∀ s : State, (∀ t, step s ≠ .next t) ↔ ∃ a rest, s.agenda = .host a :: rest ∧ Forbidden s a

/-- 20_memory.md R80, 60_exceptions.md R294: two instances with nothing on their agendas, both of which can move in
either order, give the same registers and the same bytes of the shared memory in both orders, and each the result it has
when it runs alone. The step that refuses conflicting regions is the model's form of U12 (log 13). -/
def Obligations.InstancesRunIndependently : Prop :=
  ∀ (y u v p q : Instances) (j k : Nat) (a b : State), j ≠ k → y.blocks[j]? = some a → y.blocks[k]? = some b →
    a.agenda = [] → b.agenda = [] →
    stepInstance j y = .next u → stepInstance k u = .next v → stepInstance k y = .next p → stepInstance j p = .next q →
    v.blocks = q.blocks ∧ (∀ x, Memory.byteAt v.shared x = Memory.byteAt q.shared x) ∧
      ∃ t, step { b with mem := y.shared } = .next t ∧ v.blocks[k]? = some { t with mem := [] }

/-! ### The Burrows–Wheeler transform -/

/-- 40_bwt.md R113: the suffix array holds each offset once, sorted by suffix, and is the only such sequence; its first
entry is `n`. -/
def Obligations.SuffixArrayIsTheSortedOffsets : Prop :=
  ∀ x : List Byte,
    (suffixArray x).Perm (List.range (x.length + 1)) ∧
    (∀ i, i < x.length →
      SuffixLess (sentinelAppended x) ((suffixArray x).getD i 0) ((suffixArray x).getD (i + 1) 0)) ∧
    (∀ q : List Nat, q.Perm (List.range (x.length + 1)) →
      (∀ i, i < x.length → SuffixLess (sentinelAppended x) (q.getD i 0) (q.getD (i + 1) 0)) → q = suffixArray x) ∧
    (suffixArray x).head? = some x.length

/-- 40_bwt.md R114: rotations and suffixes of the sentinel-appended buffer have the same order. -/
def Obligations.RotationOrderIsSuffixOrder : Prop :=
  ∀ (x : List Byte) (a b : Nat), a ≤ x.length → b ≤ x.length →
    symsLe (rotationAt (sentinelAppended x) a) (rotationAt (sentinelAppended x) b) =
      symsLe (suffixAt (sentinelAppended x) a) (suffixAt (sentinelAppended x) b)

/-- 40_bwt.md R126 (a) to (e). -/
def Obligations.ForwardTransformFacts : Prop :=
  ∀ x : List Byte,
    (bwtFwd x).1.length = x.length + 1 ∧
    ((bwtFwd x).1.eraseIdx (bwtFwd x).2).Perm x ∧
    (bwtFwd x).1[(bwtFwd x).2]? = some 0x00 ∧
    (bwtFwd x).2 ≤ x.length ∧ (1 ≤ x.length → 1 ≤ (bwtFwd x).2) ∧
    (1 ≤ x.length → (bwtFwd x).1[0]? = x[x.length - 1]?)

/-- 40_bwt.md R121: the LF-mapping is a permutation of the positions, the stable counting sort of the ordinals, and
sends the sentinel's position to 0, for any `T` and any index below its length. -/
def Obligations.LfMappingIsTheStableSortPermutation : Prop :=
  ∀ (t : List Byte) (ix : Nat), ix < t.length →
    ((List.range t.length).map (lfMap (ordinals t ix))).Perm (List.range t.length) ∧
    lfMap (ordinals t ix) ix = 0 ∧
    ∀ i j, i < t.length → j < t.length →
      (lfMap (ordinals t ix) i < lfMap (ordinals t ix) j ↔
        ordAt t ix i < ordAt t ix j ∨ (ordAt t ix i = ordAt t ix j ∧ i < j))

/-- 40_bwt.md R123: the inverse of the forward transform is the input with the sentinel's placeholder, and the walk
returns to the sentinel index, for every byte buffer, those that contain 0x00 among them. -/
def Obligations.InverseTransformUndoesForward : Prop :=
  ∀ x : List Byte, bwtInv (bwtFwd x).1 (bwtFwd x).2 = (x ++ [0x00], (bwtFwd x).2)

/-- 40_bwt.md R125, R124: on any buffer and any index in range the inverse gives a buffer of the same length that ends
in 0x00 and a final row in range, and never looks at the byte at the index. -/
def Obligations.InverseTransformIsTotal : Prop :=
  ∀ (t : List Byte) (ix : Nat) (b : Byte), ix < t.length →
    (bwtInv t ix).1.length = t.length ∧ (bwtInv t ix).1.getLast? = some 0x00 ∧ (bwtInv t ix).2 < t.length ∧
      bwtInv (t.set ix b) ix = bwtInv t ix

/-! ### Move-to-Front -/

/-- 41_mtf.md R141: the byte at `j` goes to the front, those before it move back one place, those after it stay, and the
result is a rearrangement. -/
def Obligations.MoveToFrontShiftsTheFront : Prop :=
  ∀ (p : List Byte) (j : Nat), j < p.length →
    (moveToFront p j).Perm p ∧ (moveToFront p j)[0]? = p[j]? ∧
      (∀ t, 1 ≤ t → t ≤ j → (moveToFront p j)[t]? = p[t - 1]?) ∧
      (∀ t, j < t → (moveToFront p j)[t]? = p[t]?) ∧ moveToFront p 0 = p

/-- 41_mtf.md R142, R143: the encoder emits each byte's current position, the decoder the byte at each position, in the
permutation that the steps before have left. -/
def Obligations.MtfEmitsCurrentPositions : Prop :=
  ∀ (y : List Byte) (i : Nat), i < y.length →
    (∃ z, (mtfEnc y)[i]? = some z ∧ (mtfEncPerm identityPerm (y.take i))[z.toNat]? = y[i]?) ∧
    (∃ z, y[i]? = some z ∧ (mtfDec y)[i]? = (mtfDecPerm identityPerm (y.take i))[z.toNat]?)

/-- 41_mtf.md R144: encode and decode are inverse to each other and keep the length, and the permutation after
encoding equals that after decoding the same data, step for step. -/
def Obligations.MtfDecodeAndEncodeAreInverse : Prop :=
  (∀ y, mtfDec (mtfEnc y) = y ∧ (mtfEnc y).length = y.length) ∧ (∀ z, mtfEnc (mtfDec z) = z) ∧
    ∀ (y : List Byte) (i : Nat), i ≤ y.length →
      mtfEncPerm identityPerm (y.take i) = mtfDecPerm identityPerm ((mtfEnc y).take i)

/-! ### The Huffman tree -/

/-- 42_huffman_tree.md R160: the table's sum is the length, its non-zero entries are the distinct values present, at
most 256, none exactly for the empty buffer. -/
def Obligations.HistogramCountsEveryByte : Prop :=
  ∀ z : List Byte,
    (allBytes.map (hist z)).sum = z.length ∧
    (∀ v : Byte, hist z v = ((List.range z.length).filter fun i => z[i]? = some v).length) ∧
    (allBytes.filter fun v => decide (hist z v ≠ 0)).length = z.dedup.length ∧ z.dedup.length ≤ 256 ∧
    (z.dedup.length = 0 ↔ z = [])

/-- 42_huffman_tree.md R165: the queue stays ordered by (weight, id) and loses no node when one with a new id is put in,
so the two nodes at its head are the two least. -/
def Obligations.QueueStaysOrderedByWeightThenId : Prop :=
  ∀ (n : QNode) (q : List QNode), q.Pairwise (fun a b => qnodeBefore a b = true) → (∀ a ∈ q, a.id ≠ n.id) →
    (enqueue n q).Perm (n :: q) ∧ (enqueue n q).Pairwise (fun a b => qnodeBefore a b = true)

/-- 42_huffman_tree.md R167, R166: the tree built for a non-empty buffer with `k` distinct values has exactly those
values on its leaves, each once, `k - 1` internal nodes, the root's weight is the length and its id `2k - 2`; for the
empty buffer there is no tree. -/
def Obligations.BuiltTreeHasItsLeavesAndWeight : Prop :=
  build (hist []) = none ∧
  ∀ z : List Byte, z ≠ [] →
    ∃ root, buildRoot (hist z) = some root ∧ build (hist z) = some root.tree ∧
      (treeSymbols root.tree).Nodup ∧ (∀ v, v ∈ treeSymbols root.tree ↔ v ∈ z) ∧
      (treeSymbols root.tree).length = z.dedup.length ∧ treeInternals root.tree + 1 = z.dedup.length ∧
      root.weight = z.length ∧ root.id + 2 = 2 * z.dedup.length

/-- 42_huffman_tree.md R170: the code table of a buffer has an entry for exactly the values present, each of 1 to 255
bits, and no code is an initial part of another. -/
def Obligations.CodesArePrefixFree : Prop :=
  ∀ z : List Byte,
    (∀ v, v ∈ (codes (build (hist z))).map Prod.fst ↔ v ∈ z) ∧
    (∀ v ∈ z, 1 ≤ (codeOf (codes (build (hist z))) v).length ∧ (codeOf (codes (build (hist z))) v).length ≤ 255) ∧
    (∀ v ∈ z, ∀ w ∈ z, v ≠ w → ¬ codeOf (codes (build (hist z))) v <+: codeOf (codes (build (hist z))) w)

/-- 42_huffman_tree.md R171, R172: a tree with `k` leaves serializes to `10k - 1` bits and `ceil8` of that many bytes;
the empty tree to nothing. -/
def Obligations.SerializedTreeLength : Prop :=
  treeBytes none = [] ∧
  ∀ t : Tree, (serTree t).length + 1 = 10 * (treeSymbols t).length ∧
    (treeBytes (some t)).length = ceil8 (10 * (treeSymbols t).length - 1)

/-- 42_huffman_tree.md R176: reading back a serialized tree, whatever follows it, gives the tree and the length of its
bytes, for every tree that `Build` returns, and for every tree without a repeated symbol (R174). -/
def Obligations.DeserializerReadsBackTheTree : Prop :=
  (∀ (t : Tree) (rest : List Byte) (e : ErrCode), (treeSymbols t).Nodup →
    ∃ r, deser (newReader (treeBytes (some t) ++ rest) e) = .ok (t, r) ∧
      readerBytes r = (treeBytes (some t)).length) ∧
  (∀ (z rest : List Byte) (t : Tree), build (hist z) = some t →
    ∃ r, deser (newReader (treeBytes (some t) ++ rest) .corruptTree) = .ok (t, r) ∧
      readerBytes r = (treeBytes (some t)).length)

/-- 42_huffman_tree.md R174, R175, R177: whatever the bytes, a tree that is read has no repeated symbol, at most 256
leaves and height at most 255, the reader ends on a byte boundary inside the source, and the only error is
`CorruptTreeError`. -/
def Obligations.DeserializerBoundsTheTree : Prop :=
  ∀ d : List Byte,
    (∀ t r, deser (newReader d .corruptTree) = .ok (t, r) →
      (treeSymbols t).Nodup ∧ (treeSymbols t).length ≤ 256 ∧ treeHeight t ≤ 255 ∧ r.pos % 8 = 0 ∧
        r.pos ≤ 8 * d.length) ∧
    (∀ e, deser (newReader d .corruptTree) = .error e → e = .corruptTree)

/-! ### The bit stream -/

/-- 43_bitstream.md R202 (R200), R201: the packed bytes hold the bit string MSB-first, then zeros, in `ceil8` bytes, and
the incremental writer gives the same bytes. -/
def Obligations.PackedBytesHoldTheBits : Prop :=
  ∀ bits : List Bool,
    (packBits bits).length = ceil8 bits.length ∧
    (∀ q, q < 8 * ceil8 bits.length → streamBit (packBits bits) q = bits.getD q false) ∧
    writeBits bits = packBits bits

/-- 43_bitstream.md R208, R207: the one-leaf tree takes one bit a symbol, `0`; a `1` is `CorruptStreamError`, a missing
bit the reader's error, whichever comes first. A tree with an internal root raises nothing but the reader's error. -/
def Obligations.UnpackerTakesOneBitPerSymbolOfOneLeaf : Prop :=
  (∀ (v : Byte) (count : Nat) (r : BitReader),
    ((∀ k, k < count → r.pos + k < 8 * r.data.length ∧ streamBit r.data (r.pos + k) = false) →
      unpack (.leaf v) count r = .ok (List.replicate count v, { r with pos := r.pos + count })) ∧
    (∀ k, k < count → (∀ j, j < k → r.pos + j < 8 * r.data.length ∧ streamBit r.data (r.pos + j) = false) →
      (r.pos + k < 8 * r.data.length → streamBit r.data (r.pos + k) = true →
        unpack (.leaf v) count r = .error .corruptStream) ∧
      (8 * r.data.length ≤ r.pos + k → unpack (.leaf v) count r = .error r.eos))) ∧
  (∀ (l rt : Tree) (count : Nat) (r : BitReader) (e : ErrCode), unpack (.node l rt) count r = .error e → e = r.eos)

/-- 43_bitstream.md R215: decoding what the Huffman stage encoded, with its symbol count, gives the buffer back and the
length of the tree bytes, the empty and the one-value buffer included. -/
def Obligations.HuffmanDecodeUndoesEncode : Prop :=
  ∀ z : List Byte, hufDec (hufEnc z).1 z.length = .ok (z, (hufEnc z).2)

/-- 43_bitstream.md R214, 93_implementation_defined.md U6, U7: the padding bits after the tree and after the payload may
hold anything. -/
def Obligations.DecoderIgnoresPaddingBits : Prop :=
  ∀ z d : List Byte, d.length = (hufEnc z).1.length →
    (∀ q, q < (serBits (build (hist z))).length ∨
        (8 * (hufEnc z).2 ≤ q ∧ q < 8 * (hufEnc z).2 + (payloadBits z (codes (build (hist z)))).length) →
      streamBit d q = streamBit (hufEnc z).1 q) →
    hufDec d z.length = .ok (z, (hufEnc z).2)

/-! ### The container -/

/-- 44_container.md R241: the integer fields are four bytes, least significant first, and read back. -/
def Obligations.EnvelopeIntegersAreLittleEndian : Prop :=
  (∀ v, v < 2 ^ 32 → le32 (u32le v) = v ∧ (u32le v).length = 4 ∧
    ∀ k, k < 4 → ((u32le v).getD k 0).toNat = v / 256 ^ k % 256) ∧
  (∀ b : List Byte, b.length = 4 → u32le (le32 b) = b)

/-- 44_container.md R250: decompressing a compressed buffer gives it back, for any capacity that holds it, and likewise
for the Huffman-only envelope. -/
def Obligations.DecompressUndoesCompress : Prop :=
  ∀ (maxN cap : Nat) (x : List Byte), maxN ≤ 2 ^ 32 - 2 → x.length ≤ cap →
    (x.length ≤ maxN → decompress maxN (compress x).1 cap = .ok (x, (compress x).2)) ∧
    (x.length ≤ maxN + 1 → hDecompress maxN (hCompress x).1 cap = .ok (x, (hCompress x).2))

/-- 44_container.md R245 ("Cutting a valid envelope short anywhere makes `DECOMP` fail"): inside the header with
`CorruptStreamError`, inside the tree bytes with `CorruptTreeError`, inside the payload with `SizeMismatchError`; one
extra byte fails with `SizeMismatchError`. -/
def Obligations.DamagedLengthMakesDecompressFail : Prop :=
  ∀ (maxN cap : Nat) (x : List Byte) (k : Nat) (b : Byte), maxN ≤ 2 ^ 32 - 2 → x.length ≤ maxN → x.length ≤ cap →
    let env := (compress x).1
    let tlen := (hufEnc (mtfEnc (bwtFwd x).1)).2
    (k < 8 → decompress maxN (env.take k) cap = .error .corruptStream) ∧
    (8 ≤ k → k < 8 + tlen → decompress maxN (env.take k) cap = .error .corruptTree) ∧
    (8 + tlen ≤ k → k < env.length → decompress maxN (env.take k) cap = .error .sizeMismatch) ∧
    decompress maxN (env ++ [b]) cap = .error .sizeMismatch

/-- 44_container.md R251: `COMP` equals `BWTF`, `MTFE`, `HUFE` in a row with the host framing the result, and `DECOMP`
equals `HUFD`, `MTFD`, `BWTI` in a row with the last byte dropped. Each stage's source is the result of the one before;
`result` is the destination region's first `RLEN` bytes. -/
def Obligations.CompositeCommandsEqualTheStagesInARow : Prop :=
  let result := fun t : State => memRead t.mem t.latched.dst.toNat t.rlen.toNat
  (∀ s1 s2 s3 s4 t1 t2 t3 t4 : State,
    exec .bwtf s1 = .next t1 → t1.status.state = .done →
    sourceBytes s2 = result t1 → exec .mtfe s2 = .next t2 → t2.status.state = .done →
    sourceBytes s3 = result t2 → exec .hufe s3 = .next t3 → t3.status.state = .done →
    sourceBytes s4 = sourceBytes s1 → exec .comp s4 = .next t4 → t4.status.state = .done →
    result t4 = u32le s4.latched.len.toNat ++ u32le t1.raux.toNat ++ result t3 ∧ t4.raux = t1.raux) ∧
  (∀ s1 s2 s3 s4 t1 t2 t3 t4 : State,
    exec .decomp s4 = .next t4 → t4.status.state = .done →
    sourceBytes s1 = (sourceBytes s4).drop 8 → s1.latched.aux.toNat = envelopeSize (sourceBytes s4) + 1 →
    exec .hufd s1 = .next t1 → t1.status.state = .done →
    sourceBytes s2 = result t1 → exec .mtfd s2 = .next t2 → t2.status.state = .done →
    sourceBytes s3 = result t2 → s3.latched.aux.toNat = envelopeIndex (sourceBytes s4) →
    exec .bwti s3 = .next t3 → t3.status.state = .done →
    result t4 = (result t3).dropLast)
end

