-- ==== Sys2Proof/Laws/Memory.lean ====
section
/-! SUPPORT. What the memory operations do: a byte written is read back, every other byte stays, and each operation
keeps the canonical form. -/

namespace Sys2Proof.Machine

open Sys2Proof

theorem written_setByte (m : Memory) (a x : Nat) (b : Byte) :
    Memory.written (Memory.setByte m a b) x = if x = a then some b else Memory.written m x := by
  induction m with
  | nil =>
    by_cases hx : x = a
    · simp [Memory.setByte, Memory.written, hx]
    · simp [Memory.setByte, Memory.written, hx, Ne.symm hx]
  | cons c rest ih =>
    unfold Memory.setByte
    split
    · by_cases hx : x = a
      · simp [Memory.written, hx]
      · simp [Memory.written, hx, Ne.symm hx]
    · split
      · next h =>
        by_cases hx : x = a
        · simp [Memory.written, hx]
        · simp [Memory.written, hx, Ne.symm hx, ← h]
      · next h =>
        simp only [Memory.written, ih]
        by_cases hx : x = a
        · subst hx; simp [Ne.symm h]
        · simp [hx]

/-- A write stores its byte and leaves every other byte alone (20_memory.md R61). -/
theorem byteAt_setByte (m : Memory) (a x : Nat) (b : Byte) :
    Memory.byteAt (Memory.setByte m a b) x = if x = a then b else Memory.byteAt m x := by
  unfold Memory.byteAt
  rw [written_setByte]
  split <;> simp

/-- `MemWrite` stores its buffer and leaves every other byte alone (20_memory.md R65). -/
theorem byteAt_memWrite (v : List Byte) (m : Memory) (a x : Nat) :
    Memory.byteAt (memWrite m a v) x =
      if a ≤ x ∧ x < a + v.length then v.getD (x - a) 0 else Memory.byteAt m x := by
  induction v generalizing m a with
  | nil => simp [memWrite]
  | cons b rest ih =>
    rw [memWrite, ih, byteAt_setByte]
    by_cases h1 : x = a
    · subst h1
      simp
    · by_cases h2 : a + 1 ≤ x ∧ x < a + 1 + rest.length
      · have h3 : a ≤ x ∧ x < a + (b :: rest).length := by simp only [List.length_cons]; omega
        rw [if_pos h2, if_pos h3]
        have h4 : x - a = (x - (a + 1)) + 1 := by omega
        rw [h4, List.getD_cons_succ]
      · have h3 : ¬ (a ≤ x ∧ x < a + (b :: rest).length) := by simp only [List.length_cons]; omega
        rw [if_neg h2, if_neg h3, if_neg h1]

theorem mem_setByte {m : Memory} {a : Nat} {b : Byte} {c : Host.Cell} (h : c ∈ Memory.setByte m a b) :
    c = (a, b) ∨ c ∈ m := by
  induction m with
  | nil => simpa [Memory.setByte] using h
  | cons d rest ih =>
    unfold Memory.setByte at h
    split at h
    · simpa using h
    · split at h
      · simp only [List.mem_cons] at h ⊢
        tauto
      · simp only [List.mem_cons] at h ⊢
        rcases h with h | h
        · exact Or.inr (Or.inl h)
        · rcases ih h with h | h
          · exact Or.inl h
          · exact Or.inr (Or.inr h)

/-- A one-byte write keeps the canonical form. -/
theorem setByte_wf {m : Memory} (h : Memory.wf m) (a : Nat) (b : Byte) : Memory.wf (Memory.setByte m a b) := by
  induction m with
  | nil => simp [Memory.setByte]
  | cons c rest ih =>
    have hc := List.pairwise_cons.1 h
    unfold Memory.setByte
    split
    · next hlt =>
      refine List.pairwise_cons.2 ⟨fun d hd => ?_, h⟩
      rcases List.mem_cons.1 hd with rfl | hd
      · exact hlt
      · exact Nat.lt_trans hlt (hc.1 d hd)
    · split
      · next heq =>
        refine List.pairwise_cons.2 ⟨fun d hd => ?_, hc.2⟩
        simpa [heq] using hc.1 d hd
      · refine List.pairwise_cons.2 ⟨fun d hd => ?_, ih hc.2⟩
        rcases mem_setByte hd with rfl | hd
        · simp only; omega
        · exact hc.1 d hd

/-- `MemWrite` keeps the canonical form. -/
theorem memWrite_wf {v : List Byte} {m : Memory} (h : Memory.wf m) (a : Nat) : Memory.wf (memWrite m a v) := by
  induction v generalizing m a with
  | nil => exact h
  | cons b rest ih => exact ih (setByte_wf h a b) (a + 1)

/-- `MemWrite` lists no address that was not listed and is outside the stored bytes. -/
theorem mem_memWrite {v : List Byte} {m : Memory} {a : Nat} {c : Host.Cell} (h : c ∈ memWrite m a v) :
    (a ≤ c.1 ∧ c.1 < a + v.length) ∨ c ∈ m := by
  induction v generalizing m a with
  | nil => exact Or.inr h
  | cons b rest ih =>
    rcases ih h with h | h
    · left; simp only [List.length_cons]; omega
    · rcases mem_setByte h with rfl | h
      · left; simp
      · exact Or.inr h

@[simp] theorem memRead_length (m : Memory) (a n : Nat) : (memRead m a n).length = n := by simp [memRead]

/-- Byte `i` of a read is the byte at its address (20_memory.md R64). -/
theorem memRead_getElem? (m : Memory) (a n i : Nat) (h : i < n) : (memRead m a n)[i]? = some (Memory.byteAt m (a + i)) := by
  simp [memRead, h]

/-- Two memories that hold the same bytes in a region read the same there. -/
theorem memRead_congr {m k : Memory} {a n : Nat} (h : ∀ i, i < n → Memory.byteAt m (a + i) = Memory.byteAt k (a + i)) :
    memRead m a n = memRead k a n := by
  unfold memRead
  exact List.map_congr_left fun i hi => h i (List.mem_range.1 hi)

/-- Reading back what was just stored (20_memory.md R64, R65). -/
theorem memRead_memWrite (m : Memory) (a : Nat) (v : List Byte) : memRead (memWrite m a v) a v.length = v := by
  apply List.ext_getElem?
  intro i
  by_cases h : i < v.length
  · rw [memRead_getElem? _ _ _ _ h, byteAt_memWrite, if_pos (by omega)]
    simp [h]
  · rw [List.getElem?_eq_none (by simp; omega), List.getElem?_eq_none (by omega)]

end Sys2Proof.Machine
end

