-- ==== Sys2Proof/Laws/State.lean ====
section
/-! SUPPORT. One lemma per field per named update of the state, true by rfl, so that no later proof unfolds a record
update. -/

namespace Sys2Proof.Machine

open Sys2Proof

variable (s : State)

/-! ### issue -/

@[simp] theorem issue_cfg (w : Word) : (issue w s).cfg = s.cfg := rfl
@[simp] theorem issue_cmd (w : Word) : (issue w s).cmd = w := rfl
@[simp] theorem issue_status (w : Word) : (issue w s).status = { state := .busy, err := 0 } := rfl
@[simp] theorem issue_src (w : Word) : (issue w s).src = s.src := rfl
@[simp] theorem issue_len (w : Word) : (issue w s).len = s.len := rfl
@[simp] theorem issue_dst (w : Word) : (issue w s).dst = s.dst := rfl
@[simp] theorem issue_cap (w : Word) : (issue w s).cap = s.cap := rfl
@[simp] theorem issue_aux (w : Word) : (issue w s).aux = s.aux := rfl
@[simp] theorem issue_rlen (w : Word) : (issue w s).rlen = 0 := rfl
@[simp] theorem issue_raux (w : Word) : (issue w s).raux = 0 := rfl
@[simp] theorem issue_latched (w : Word) : (issue w s).latched = { word := w, src := s.src, len := s.len, dst := s.dst, cap := s.cap, aux := s.aux } := rfl
@[simp] theorem issue_mem (w : Word) : (issue w s).mem = s.mem := rfl
@[simp] theorem issue_held (w : Word) : (issue w s).held = { word := w, src := s.src, len := s.len, dst := s.dst, cap := s.cap, aux := s.aux } :: s.held := rfl
@[simp] theorem issue_agenda (w : Word) : (issue w s).agenda = s.agenda := rfl
@[simp] theorem issue_seen (w : Word) : (issue w s).seen = s.seen := rfl

/-! ### issuedAlone -/

@[simp] theorem issuedAlone_cfg (w : Word) : (issuedAlone w s).cfg = s.cfg := rfl
@[simp] theorem issuedAlone_cmd (w : Word) : (issuedAlone w s).cmd = w := rfl
@[simp] theorem issuedAlone_status (w : Word) : (issuedAlone w s).status = { state := .busy, err := 0 } := rfl
@[simp] theorem issuedAlone_src (w : Word) : (issuedAlone w s).src = s.src := rfl
@[simp] theorem issuedAlone_len (w : Word) : (issuedAlone w s).len = s.len := rfl
@[simp] theorem issuedAlone_dst (w : Word) : (issuedAlone w s).dst = s.dst := rfl
@[simp] theorem issuedAlone_cap (w : Word) : (issuedAlone w s).cap = s.cap := rfl
@[simp] theorem issuedAlone_aux (w : Word) : (issuedAlone w s).aux = s.aux := rfl
@[simp] theorem issuedAlone_rlen (w : Word) : (issuedAlone w s).rlen = 0 := rfl
@[simp] theorem issuedAlone_raux (w : Word) : (issuedAlone w s).raux = 0 := rfl
@[simp] theorem issuedAlone_latched (w : Word) : (issuedAlone w s).latched = { word := w, src := s.src, len := s.len, dst := s.dst, cap := s.cap, aux := s.aux } := rfl
@[simp] theorem issuedAlone_mem (w : Word) : (issuedAlone w s).mem = s.mem := rfl
@[simp] theorem issuedAlone_held (w : Word) : (issuedAlone w s).held = { word := w, src := s.src, len := s.len, dst := s.dst, cap := s.cap, aux := s.aux } :: s.held := rfl
@[simp] theorem issuedAlone_agenda (w : Word) : (issuedAlone w s).agenda = [] := rfl
@[simp] theorem issuedAlone_seen (w : Word) : (issuedAlone w s).seen = s.seen := rfl

/-! ### observe -/

@[simp] theorem observe_cfg (v : Word) : (observe v s).cfg = s.cfg := rfl
@[simp] theorem observe_cmd (v : Word) : (observe v s).cmd = s.cmd := rfl
@[simp] theorem observe_status (v : Word) : (observe v s).status = s.status := rfl
@[simp] theorem observe_src (v : Word) : (observe v s).src = s.src := rfl
@[simp] theorem observe_len (v : Word) : (observe v s).len = s.len := rfl
@[simp] theorem observe_dst (v : Word) : (observe v s).dst = s.dst := rfl
@[simp] theorem observe_cap (v : Word) : (observe v s).cap = s.cap := rfl
@[simp] theorem observe_aux (v : Word) : (observe v s).aux = s.aux := rfl
@[simp] theorem observe_rlen (v : Word) : (observe v s).rlen = s.rlen := rfl
@[simp] theorem observe_raux (v : Word) : (observe v s).raux = s.raux := rfl
@[simp] theorem observe_latched (v : Word) : (observe v s).latched = s.latched := rfl
@[simp] theorem observe_mem (v : Word) : (observe v s).mem = s.mem := rfl
@[simp] theorem observe_held (v : Word) : (observe v s).held = s.held := rfl
@[simp] theorem observe_agenda (v : Word) : (observe v s).agenda = s.agenda := rfl
@[simp] theorem observe_seen (v : Word) : (observe v s).seen = v :: s.seen := rfl

/-! ### resetEvent -/

@[simp] theorem resetEvent_cfg : (resetEvent s).cfg = s.cfg := rfl
@[simp] theorem resetEvent_cmd : (resetEvent s).cmd = 0 := rfl
@[simp] theorem resetEvent_status : (resetEvent s).status = { state := .idle, err := 0 } := rfl
@[simp] theorem resetEvent_src : (resetEvent s).src = 0 := rfl
@[simp] theorem resetEvent_len : (resetEvent s).len = 0 := rfl
@[simp] theorem resetEvent_dst : (resetEvent s).dst = 0 := rfl
@[simp] theorem resetEvent_cap : (resetEvent s).cap = 0 := rfl
@[simp] theorem resetEvent_aux : (resetEvent s).aux = 0 := rfl
@[simp] theorem resetEvent_rlen : (resetEvent s).rlen = 0 := rfl
@[simp] theorem resetEvent_raux : (resetEvent s).raux = 0 := rfl
@[simp] theorem resetEvent_latched : (resetEvent s).latched = Latched.none := rfl
@[simp] theorem resetEvent_mem : (resetEvent s).mem = s.mem := rfl
@[simp] theorem resetEvent_held : (resetEvent s).held = [] := rfl
@[simp] theorem resetEvent_agenda : (resetEvent s).agenda = s.agenda := rfl
@[simp] theorem resetEvent_seen : (resetEvent s).seen = s.seen := rfl

/-! ### commit -/

@[simp] theorem commit_cfg (out : List Byte) (r : Nat) : (commit out r s).cfg = s.cfg := rfl
@[simp] theorem commit_cmd (out : List Byte) (r : Nat) : (commit out r s).cmd = s.cmd := rfl
@[simp] theorem commit_status (out : List Byte) (r : Nat) : (commit out r s).status = { s.status with state := .done } := rfl
@[simp] theorem commit_src (out : List Byte) (r : Nat) : (commit out r s).src = s.src := rfl
@[simp] theorem commit_len (out : List Byte) (r : Nat) : (commit out r s).len = s.len := rfl
@[simp] theorem commit_dst (out : List Byte) (r : Nat) : (commit out r s).dst = s.dst := rfl
@[simp] theorem commit_cap (out : List Byte) (r : Nat) : (commit out r s).cap = s.cap := rfl
@[simp] theorem commit_aux (out : List Byte) (r : Nat) : (commit out r s).aux = s.aux := rfl
@[simp] theorem commit_rlen (out : List Byte) (r : Nat) : (commit out r s).rlen = BitVec.ofNat 32 out.length := rfl
@[simp] theorem commit_raux (out : List Byte) (r : Nat) : (commit out r s).raux = BitVec.ofNat 32 r := rfl
@[simp] theorem commit_latched (out : List Byte) (r : Nat) : (commit out r s).latched = s.latched := rfl
@[simp] theorem commit_mem (out : List Byte) (r : Nat) : (commit out r s).mem = memWrite s.mem s.latched.dst.toNat out := rfl
@[simp] theorem commit_held (out : List Byte) (r : Nat) : (commit out r s).held = s.held := rfl
@[simp] theorem commit_agenda (out : List Byte) (r : Nat) : (commit out r s).agenda = s.agenda := rfl
@[simp] theorem commit_seen (out : List Byte) (r : Nat) : (commit out r s).seen = s.seen := rfl

/-! ### errorEntry -/

@[simp] theorem errorEntry_cfg (e : ErrCode) : (errorEntry e s).cfg = s.cfg := rfl
@[simp] theorem errorEntry_cmd (e : ErrCode) : (errorEntry e s).cmd = s.cmd := rfl
@[simp] theorem errorEntry_status (e : ErrCode) : (errorEntry e s).status = { state := .error, err := e.code } := rfl
@[simp] theorem errorEntry_src (e : ErrCode) : (errorEntry e s).src = s.src := rfl
@[simp] theorem errorEntry_len (e : ErrCode) : (errorEntry e s).len = s.len := rfl
@[simp] theorem errorEntry_dst (e : ErrCode) : (errorEntry e s).dst = s.dst := rfl
@[simp] theorem errorEntry_cap (e : ErrCode) : (errorEntry e s).cap = s.cap := rfl
@[simp] theorem errorEntry_aux (e : ErrCode) : (errorEntry e s).aux = s.aux := rfl
@[simp] theorem errorEntry_rlen (e : ErrCode) : (errorEntry e s).rlen = 0 := rfl
@[simp] theorem errorEntry_raux (e : ErrCode) : (errorEntry e s).raux = 0 := rfl
@[simp] theorem errorEntry_latched (e : ErrCode) : (errorEntry e s).latched = s.latched := rfl
@[simp] theorem errorEntry_mem (e : ErrCode) : (errorEntry e s).mem = s.mem := rfl
@[simp] theorem errorEntry_held (e : ErrCode) : (errorEntry e s).held = s.held := rfl
@[simp] theorem errorEntry_agenda (e : ErrCode) : (errorEntry e s).agenda = s.agenda := rfl
@[simp] theorem errorEntry_seen (e : ErrCode) : (errorEntry e s).seen = s.seen := rfl

/-! ### handBack -/

@[simp] theorem handBack_cfg : (handBack s).cfg = s.cfg := by unfold handBack; split <;> rfl
@[simp] theorem handBack_cmd : (handBack s).cmd = s.cmd := by unfold handBack; split <;> rfl
@[simp] theorem handBack_status : (handBack s).status = s.status := by unfold handBack; split <;> rfl
@[simp] theorem handBack_src : (handBack s).src = s.src := by unfold handBack; split <;> rfl
@[simp] theorem handBack_len : (handBack s).len = s.len := by unfold handBack; split <;> rfl
@[simp] theorem handBack_dst : (handBack s).dst = s.dst := by unfold handBack; split <;> rfl
@[simp] theorem handBack_cap : (handBack s).cap = s.cap := by unfold handBack; split <;> rfl
@[simp] theorem handBack_aux : (handBack s).aux = s.aux := by unfold handBack; split <;> rfl
@[simp] theorem handBack_rlen : (handBack s).rlen = s.rlen := by unfold handBack; split <;> rfl
@[simp] theorem handBack_raux : (handBack s).raux = s.raux := by unfold handBack; split <;> rfl
@[simp] theorem handBack_latched : (handBack s).latched = s.latched := by unfold handBack; split <;> rfl
@[simp] theorem handBack_mem : (handBack s).mem = s.mem := by unfold handBack; split <;> rfl
@[simp] theorem handBack_held : (handBack s).held = if s.completed then [] else s.held := by
  unfold handBack; split <;> rfl
@[simp] theorem handBack_agenda : (handBack s).agenda = s.agenda := by unfold handBack; split <;> rfl
@[simp] theorem handBack_seen : (handBack s).seen = s.seen := by unfold handBack; split <;> rfl

/-! ### The state after reset -/

@[simp] theorem resetWith_cfg (c : Config) : (State.resetWith c).cfg = c := rfl
@[simp] theorem resetWith_cmd (c : Config) : (State.resetWith c).cmd = 0 := rfl
@[simp] theorem resetWith_status (c : Config) : (State.resetWith c).status = { state := .idle, err := 0 } := rfl
@[simp] theorem resetWith_src (c : Config) : (State.resetWith c).src = 0 := rfl
@[simp] theorem resetWith_len (c : Config) : (State.resetWith c).len = 0 := rfl
@[simp] theorem resetWith_dst (c : Config) : (State.resetWith c).dst = 0 := rfl
@[simp] theorem resetWith_cap (c : Config) : (State.resetWith c).cap = 0 := rfl
@[simp] theorem resetWith_aux (c : Config) : (State.resetWith c).aux = 0 := rfl
@[simp] theorem resetWith_rlen (c : Config) : (State.resetWith c).rlen = 0 := rfl
@[simp] theorem resetWith_raux (c : Config) : (State.resetWith c).raux = 0 := rfl
@[simp] theorem resetWith_latched (c : Config) : (State.resetWith c).latched = Latched.none := rfl
@[simp] theorem resetWith_mem (c : Config) : (State.resetWith c).mem = [] := rfl
@[simp] theorem resetWith_held (c : Config) : (State.resetWith c).held = [] := rfl
@[simp] theorem resetWith_agenda (c : Config) : (State.resetWith c).agenda = [] := rfl
@[simp] theorem resetWith_seen (c : Config) : (State.resetWith c).seen = [] := rfl

end Sys2Proof.Machine
end

