-- ==== Sys2Proof/Laws/Exec.lean ====
section
/-! SUPPORT. Once for all ten commands: what completion can do, and when the region check passes. -/

namespace Sys2Proof.Machine

open Sys2Proof

/-- The body of each command. -/
def bodyOf : Instr → Body
  | .bwtf => bwtfBody
  | .bwti => bwtiBody
  | .mtfe => mtfeBody
  | .mtfd => mtfdBody
  | .hufe => hufeBody
  | .hufd => hufdBody
  | .comp => compBody
  | .decomp => decompBody
  | .hcomp => hcompBody
  | .hdecomp => hdecompBody

/-- Every meaning is the shared completion step on its own body. -/
theorem exec_eq_complete (i : Instr) (s : State) : exec i s = complete (bodyOf i) s := by
  cases i <;> rfl

/-- The region check as arithmetic (20_memory.md R71). -/
theorem checkRegions_ok_iff (s : State) : checkRegions s.cfg s.latched = .ok () ↔ RegionsOk s := by
  unfold checkRegions regionsOverlap RegionsOk
  split
  · next h => simp; omega
  · split
    · next h => simp; omega
    · split
      · next h => simp at h ⊢; omega
      · next h => simp at h ⊢; omega

/-- The region check raises nothing but `OperandError` (60_exceptions.md R277). -/
theorem checkRegions_error {c : Config} {l : Latched} {e : ErrCode} (h : checkRegions c l = .error e) : e = .operand := by
  unfold checkRegions at h
  split at h
  · injection h with h; exact h.symm
  · split at h
    · injection h with h; exact h.symm
    · split at h
      · injection h with h; exact h.symm
      · cases h

/-- A result of `Exec`: the regions are in order, the body gave it, and it fits the capacity (30_encoding.md R99). -/
theorem execBody_ok {body : Body} {s : State} {r : List Byte × Nat} (h : execBody body s = .ok r) :
    RegionsOk s ∧
      body s.cfg (sourceBytes s) s.latched.len.toNat s.latched.cap.toNat s.latched.aux.toNat = .ok r ∧
        r.1.length ≤ s.latched.cap.toNat := by
  unfold execBody at h
  split at h
  · cases h
  · next hc =>
    split at h
    · cases h
    · next hb =>
      split at h
      · cases h
      · next hl =>
        cases h
        exact ⟨(checkRegions_ok_iff s).1 hc, hb, by omega⟩

/-- Completion commits a result or enters an error; it never stops (10_state.md R32). -/
theorem complete_cases (body : Body) (s : State) :
    (∃ r, execBody body s = .ok r ∧ complete body s = .next (commit r.1 r.2 s)) ∨
      ∃ e, execBody body s = .error e ∧ complete body s = .next (errorEntry e s) := by
  unfold complete
  split
  · next r h => exact Or.inl ⟨r, h, rfl⟩
  · next e h => exact Or.inr ⟨e, h, rfl⟩

/-- Everything a command can do: commit a result that fits its region, or enter an error (10_state.md R32,
60_exceptions.md R280). -/
theorem exec_next_cases {i : Instr} {s t : State} (h : exec i s = .next t) :
    (∃ out raux, RegionsOk s ∧ out.length ≤ s.latched.cap.toNat ∧ execBody (bodyOf i) s = .ok (out, raux) ∧
        t = commit out raux s) ∨
      ∃ e, execBody (bodyOf i) s = .error e ∧ t = errorEntry e s := by
  rw [exec_eq_complete] at h
  rcases complete_cases (bodyOf i) s with ⟨r, hr, hc⟩ | ⟨e, he, hc⟩
  · rw [hc] at h
    injection h with h
    exact Or.inl ⟨r.1, r.2, (execBody_ok hr).1, (execBody_ok hr).2.2, hr, h.symm⟩
  · rw [hc] at h
    injection h with h
    exact Or.inr ⟨e, he, h.symm⟩

/-- The source bytes have the length `LEN` (20_memory.md R64). -/
@[simp] theorem sourceBytes_length (s : State) : (sourceBytes s).length = s.latched.len.toNat := by simp [sourceBytes]

theorem requireAtMost_ok {a b : Nat} (h : a ≤ b) : requireAtMost a b = .ok () := by
  unfold requireAtMost; rw [if_neg (by omega)]

theorem requireAtMost_error {a b : Nat} (h : b < a) : requireAtMost a b = .error .allocation := by
  unfold requireAtMost; rw [if_pos h]

end Sys2Proof.Machine
end

