-- ==== Sys2Proof/Laws/PerInstr.lean ====
section
/-! SUPPORT. Per-instruction facts: each command is well formed, its word is legal, and the word decodes to it. -/

namespace Sys2Proof.Laws.Encoding

open Sys2Proof

/-- The command's word is legal (30_encoding.md R93) and decodes to the command (R91). -/
def Statement (i : Instr) : Prop := i.wf = true ∧ wordLegal (encode i) = true ∧ decode (encode i) = .ok i

theorem bwtf : Statement .bwtf := ⟨rfl, rfl, rfl⟩
theorem bwti : Statement .bwti := ⟨rfl, rfl, rfl⟩
theorem mtfe : Statement .mtfe := ⟨rfl, rfl, rfl⟩
theorem mtfd : Statement .mtfd := ⟨rfl, rfl, rfl⟩
theorem hufe : Statement .hufe := ⟨rfl, rfl, rfl⟩
theorem hufd : Statement .hufd := ⟨rfl, rfl, rfl⟩
theorem comp : Statement .comp := ⟨rfl, rfl, rfl⟩
theorem decomp : Statement .decomp := ⟨rfl, rfl, rfl⟩
theorem hcomp : Statement .hcomp := ⟨rfl, rfl, rfl⟩
theorem hdecomp : Statement .hdecomp := ⟨rfl, rfl, rfl⟩

end Sys2Proof.Laws.Encoding
end

