-- ==== Sys2Proof/Laws/Step.lean ====
section
/-! SUPPORT. Everything one turn of the machine can be. -/

namespace Sys2Proof.Machine

open Sys2Proof

/-- A turn is the engine's, on the state with or without its first turn taken off the agenda, or one host action on the
state with that turn taken off. -/
theorem step_cases (s : State) :
    (step s = engineTurn s ∧
      (s.agenda = [] ∨ ∃ rest, s.agenda = .host .wait :: rest ∧ s.busy = true)) ∨
    (∃ rest, s.agenda = .engine :: rest ∧ step s = engineTurn { s with agenda := rest }) ∨
    (∃ a rest, s.agenda = .host a :: rest ∧ (a = .wait → s.busy = false) ∧
      step s = hostTurn a { s with agenda := rest }) := by
  unfold step takeTurn
  split
  · next h => exact Or.inl ⟨rfl, Or.inl h⟩
  · next rest h => exact Or.inr (Or.inl ⟨rest, h, rfl⟩)
  · next rest h =>
    split
    · next hb => exact Or.inl ⟨rfl, Or.inr ⟨rest, h, hb⟩⟩
    · next hb => exact Or.inr (Or.inr ⟨.wait, rest, h, fun _ => by simpa using hb, rfl⟩)
  · next a rest hw h => exact Or.inr (Or.inr ⟨a, rest, h, fun ha => absurd ha (by simpa using hw), rfl⟩)

/-- The engine's turn when it is not `BUSY`: nothing. -/
theorem engineTurn_idle {s : State} (h : s.busy = false) : engineTurn s = .next s := by simp [engineTurn, h]

/-- An aligned word access goes through (20_memory.md R69). -/
theorem registerAccess_word {off : Word} (h : off.toNat % 4 = 0) (k : State) : registerAccess .word off k = .next k := by
  simp [registerAccess, h]

/-- A register access that goes through was an aligned word access. -/
theorem registerAccess_next {size : AccessSize} {off : Word} {k t : State} (h : registerAccess size off k = .next t) :
    size = .word ∧ off.toNat % 4 = 0 ∧ t = k := by
  unfold registerAccess at h
  split at h
  · cases h
  · next h1 =>
    split at h
    · cases h
    · next h2 =>
      injection h with h
      exact ⟨by simpa using h1, by simpa using h2, h.symm⟩

end Sys2Proof.Machine
end

