-- ==== Sys2Proof/Tests/Slice0.lean ====
section
/-! SUPPORT. The model's own tests: words written out from 30_encoding.md R91, ill-formed data that the checks refuse,
one-step runs of every command against the vectors of 95_test_vectors.md and 96_test_vectors_pipeline.md, and for every
obligation with hypotheses a concrete witness that meets them. -/

namespace Sys2Proof.Tests

set_option Elab.async false

open Sys2Proof
open Sys2Proof.Machine

/-! ### Words, from 30_encoding.md R91 and R93 -/

theorem test_decode_bwtf : decode 0b00000000000000000000000000000001#32 = .ok .bwtf := rfl
theorem test_decode_bwti : decode 0b00000000000000000000000000000010#32 = .ok .bwti := rfl
theorem test_decode_mtfe : decode 0b00000000000000000000000000000011#32 = .ok .mtfe := rfl
theorem test_decode_mtfd : decode 0b00000000000000000000000000000100#32 = .ok .mtfd := rfl
theorem test_decode_hufe : decode 0b00000000000000000000000000000101#32 = .ok .hufe := rfl
theorem test_decode_hufd : decode 0b00000000000000000000000000000110#32 = .ok .hufd := rfl
theorem test_decode_comp : decode 0b00000000000000000000000000000111#32 = .ok .comp := rfl
theorem test_decode_decomp : decode 0b00000000000000000000000000001000#32 = .ok .decomp := rfl
theorem test_decode_hcomp : decode 0b00000000000000000000000000001001#32 = .ok .hcomp := rfl
theorem test_decode_hdecomp : decode 0b00000000000000000000000000001010#32 = .ok .hdecomp := rfl
theorem test_decode_opcode_zero : decode 0x00000000 = .error .reservedOpcode := rfl
theorem test_decode_opcode_0B : decode 0x0000000B = .error .reservedOpcode := rfl
theorem test_decode_opcode_FF : decode 0x000000FF = .error .reservedOpcode := rfl
theorem test_decode_rsv_low_bit : decode 0x00000101 = .error .reservedBits := rfl
theorem test_decode_rsv_top_bit : decode 0x80000003 = .error .reservedBits := rfl
theorem test_table_rows_are_distinct : opcodeTable.Pairwise fun r q => r.pattern ≠ q.pattern := by decide
theorem test_decodeTableWord_hdecomp : decodeTableWord 32 0x0000000A = some .hdecomp := rfl

/-! ### Ill-formed data the checks refuse (smoke tests of WellFormed.lean) -/

theorem test_word_with_reserved_bit_is_illegal : wordLegal 0x00000101 = false := rfl
theorem test_word_with_opcode_zero_is_illegal : wordLegal 0x00000000 = false := rfl
theorem test_word_with_opcode_0B_is_illegal : wordLegal 0x0000000B = false := rfl
theorem test_config_without_memory_is_refused : Config.wf { memBytes := 0, maxN := 0 } = false := rfl
theorem test_config_with_too_much_memory_is_refused : Config.wf { memBytes := 2 ^ 32 + 1, maxN := 0 } = false := rfl
theorem test_config_with_too_large_maxN_is_refused : Config.wf { memBytes := 1, maxN := 2 ^ 32 - 1 } = false := rfl
theorem test_config_of_vectors_is_accepted : Config.wf Config.ofVectors = true := rfl

/-! ### Helpers -/

/-- A command that has just been issued: `src` at 0x10, destination region at 0x80. -/
def job (i : Instr) (src : List Byte) (cap aux : Word) : State :=
  issue (encode i)
    { State.reset with
      src := 0x10
      len := BitVec.ofNat 32 src.length
      dst := 0x80
      cap := cap
      aux := aux
      mem := memWrite [] 0x10 src }

/-- The state after a step, or the state before it where the step stops. -/
def after (s : State) (o : Host.Outcome State Fault Refusal) : State :=
  match o with
  | .next t => t
  | .fault _ => s
  | .refused _ => s

/-- What the host finds after a step: `STATUS`, `RLEN`, `RAUX`, and the result bytes. -/
def found (s : State) : Word × Word × Word × List Byte :=
  let t := after s (step s)
  (t.status.word, t.rlen, t.raux, memRead t.mem 0x80 t.rlen.toNat)

/-- The state after reset with a host action as the next turn. -/
def hostDoes (a : HostAction) : State := { State.reset with agenda := [.host a] }

theorem exec_after (i : Instr) (s : State) : exec i s = .next (after s (exec i s)) := by
  rw [exec_eq_complete]
  rcases complete_cases (bodyOf i) s with ⟨r, _, h⟩ | ⟨e, _, h⟩ <;> rw [h] <;> rfl

def banana : List Byte := [0x62, 0x61, 0x6E, 0x61, 0x6E, 0x61]
def bananaEnvelope : List Byte :=
  [0x06, 0x00, 0x00, 0x00, 0x04, 0x00, 0x00, 0x00, 0x2D, 0xD0, 0x04, 0x0D, 0x61, 0xB1, 0x80, 0xC3, 0xE9]
def bananaL : List Byte := [0x61, 0x6E, 0x6E, 0x62, 0x00, 0x61, 0x61]
def bananaZ : List Byte := [0x61, 0x6E, 0x00, 0x63, 0x03, 0x03, 0x00]
def bananaH : List Byte := [0x2D, 0xD0, 0x04, 0x0D, 0x61, 0xB1, 0x80, 0xC3, 0xE9]

/-! ### Every command, one step -/

/-- 95_test_vectors.md B5. -/
theorem test_bwtf_banana : found (job .bwtf banana 16 0) =
    (0x02, 7, 4, [0x61, 0x6E, 0x6E, 0x62, 0x00, 0x61, 0x61]) := by decide +kernel
/-- 95_test_vectors.md B7: the input holds the placeholder byte. -/
theorem test_bwtf_zeros : found (job .bwtf [0x00, 0x00, 0x01, 0x00] 16 0) = (0x02, 5, 2, [0x00, 0x01, 0x00, 0x00, 0x00]) := by
  decide +kernel
/-- 95_test_vectors.md I9: the byte at the sentinel's place is not looked at. -/
theorem test_bwti_ignores_the_placeholder : found (job .bwti [0x61, 0x6E, 0x6E, 0x62, 0xFF, 0x61, 0x61] 7 4) =
    (0x02, 7, 4, [0x62, 0x61, 0x6E, 0x61, 0x6E, 0x61, 0x00]) := by decide +kernel
/-- 95_test_vectors.md I14: `AUX >= LEN`. -/
theorem test_bwti_index_out_of_range : found (job .bwti [0x41, 0x42] 7 2) = (0x33, 0, 0, []) := by decide +kernel
/-- 95_test_vectors.md M4. -/
theorem test_mtfe_M4 : found (job .mtfe [0x01, 0x01, 0x00, 0x00, 0x02, 0x01] 6 9) =
    (0x02, 6, 0, [0x01, 0x00, 0x01, 0x00, 0x02, 0x02]) := by decide +kernel
/-- 41_mtf.md R145: `LEN > CAP`. -/
theorem test_mtfe_capacity : found (job .mtfe [0x01, 0x01] 1 0) = (0x13, 0, 0, []) := by decide +kernel
/-- 95_test_vectors.md D3. -/
theorem test_mtfd_D3 : found (job .mtfd [0xFF, 0xFF] 2 0) = (0x02, 2, 0, [0xFF, 0xFE]) := by decide +kernel
/-- 95_test_vectors.md D4. -/
theorem test_mtfd_D4 : found (job .mtfd [0x03, 0x00, 0x03] 3 0) = (0x02, 3, 0, [0x03, 0x03, 0x02]) := by decide +kernel
/-- 95_test_vectors.md HE8: the example of 43_bitstream.md R212, with a tie between two nodes of weight 3. -/
theorem test_hufe_HE8 :
    found (job .hufe [0x41, 0x41, 0x41, 0x41, 0x42, 0x42, 0x42, 0x43, 0x43, 0x44, 0x41, 0x41, 0x41, 0x41] 8 0) =
      (0x02, 8, 5, [0x28, 0x4A, 0x25, 0x0E, 0x82, 0xF0, 0x1B, 0x5E]) := by decide +kernel
/-- 95_test_vectors.md HE4: the ninth one-bit code needs a second payload byte. -/
theorem test_hufe_HE4 : found (job .hufe (List.replicate 9 0x41) 8 0) = (0x02, 4, 2, [0xA0, 0x80, 0x00, 0x00]) := by
  decide +kernel
/-- 95_test_vectors.md HD22: pad bits set after the tree and after the payload. -/
theorem test_hufd_HD22 : found (job .hufd [0x28, 0x4A, 0x25, 0x0E, 0x83, 0xF0, 0x1B, 0x5F] 14 14) =
    (0x02, 14, 5, [0x41, 0x41, 0x41, 0x41, 0x42, 0x42, 0x42, 0x43, 0x43, 0x44, 0x41, 0x41, 0x41, 0x41]) := by
  decide +kernel
/-- 95_test_vectors.md HD14: a leaf repeats a symbol. -/
theorem test_hufd_HD14 : found (job .hufd [0x50, 0x68, 0x20, 0x00] 14 1) = (0x23, 0, 0, []) := by decide +kernel
/-- 96_test_vectors_pipeline.md T3. -/
theorem test_comp_T3 : found (job .comp banana 32 0) =
    (0x02, 17, 4, [0x06, 0x00, 0x00, 0x00, 0x04, 0x00, 0x00, 0x00, 0x2D, 0xD0, 0x04, 0x0D, 0x61, 0xB1, 0x80, 0xC3, 0xE9]) := by
  decide +kernel
/-- 96_test_vectors_pipeline.md T0: the empty input. -/
theorem test_comp_T0 : found (job .comp [] 11 0) = (0x02, 11, 0, [0, 0, 0, 0, 0, 0, 0, 0, 0x80, 0, 0]) := by decide +kernel
/-- 96_test_vectors_pipeline.md T3 read back. -/
theorem test_decomp_T3 : found (job .decomp bananaEnvelope 6 0) = (0x02, 6, 4, [0x62, 0x61, 0x6E, 0x61, 0x6E, 0x61]) := by
  decide +kernel
/-- 96_test_vectors_pipeline.md E19: the short header is tested before the capacity. -/
theorem test_decomp_short_header : found (job .decomp [0x0E, 0, 0, 0, 5, 0, 0] 0 0) = (0x33, 0, 0, []) := by decide +kernel
/-- 96_test_vectors_pipeline.md K6. -/
theorem test_hcomp_K6 :
    found (job .hcomp [0x41, 0x41, 0x41, 0x41, 0x42, 0x42, 0x42, 0x43, 0x43, 0x44, 0x41, 0x41, 0x41, 0x41] 12 0) =
      (0x02, 12, 5, [0x0E, 0x00, 0x00, 0x00, 0x28, 0x4A, 0x25, 0x0E, 0x82, 0xF0, 0x1B, 0x5E]) := by decide +kernel
/-- 96_test_vectors_pipeline.md K3. -/
theorem test_hcomp_K3 : found (job .hcomp [] 4 0) = (0x02, 4, 0, [0, 0, 0, 0]) := by decide +kernel
/-- 96_test_vectors_pipeline.md K11. -/
theorem test_hdecomp_K11 : found (job .hdecomp [0x05, 0x00, 0x00, 0x00, 0xA0, 0x80, 0x00] 5 0) =
    (0x02, 5, 2, [0x41, 0x41, 0x41, 0x41, 0x41]) := by decide +kernel
/-- 96_test_vectors_pipeline.md K12: a `1` bit in a one-leaf tree. -/
theorem test_hdecomp_K12 : found (job .hdecomp [0x05, 0x00, 0x00, 0x00, 0xA0, 0x80, 0x08] 5 0) = (0x33, 0, 0, []) := by
  decide +kernel

/-! ### The interface, one step -/

/-- 96_test_vectors_pipeline.md W6: an illegal word, whatever the operands. -/
theorem test_illegal_word : found (issue 0x00000100 { State.reset with src := 0xFFFFFFFF, len := 0xFFFFFFFF }) =
    (0x53, 0, 0, []) := by decide +kernel
/-- 96_test_vectors_pipeline.md W12: no wrap-around in the region check. -/
theorem test_region_check_does_not_wrap :
    found (issue 0x00000003 { State.reset with src := 0xFFFFFFFF, len := 2, cap := 2 }) = (0x63, 0, 0, []) := by
  decide +kernel
/-- 96_test_vectors_pipeline.md G3: `STATUS` is read-only. -/
theorem test_status_write_is_ignored : (after State.reset (step (hostDoes (.regWrite .word 0x04 0xFFFFFFFF)))).status.word = 0 := by
  decide +kernel
/-- 96_test_vectors_pipeline.md G8: a register write while `BUSY` is dropped. -/
theorem test_busy_write_is_dropped :
    let s := { job .mtfe banana 16 0 with agenda := [.host (.regWrite .word 0x08 0x100)] }
    (after s (step s)).src = 0x10 := by decide +kernel
/-- The state that `withFetchWord` gives runs the command in the very next step. -/
theorem test_withFetchWord_runs_mtfe : (after State.reset (step (State.reset.withFetchWord 32 3))).status.word = 0x02 := by
  decide +kernel
/-- 30_encoding.md R102: the register writes of the line `BWTF 0x100, 14, 0x200, 15`. -/
theorem test_listing_line_encoding : lineWrites (.command .bwtf 0x100 14 0x200 15 0) =
    [(0x08, 0x00000100), (0x0C, 0x0000000E), (0x10, 0x00000200), (0x14, 0x0000000F), (0x18, 0x00000000), (0x00, 0x00000001)] :=
  rfl
/-- 30_encoding.md R100, R101: the text of listing lines, as 95_test_vectors.md spells them. -/
theorem test_listing_text :
    readListing "STORE   0x100, 62 61\nBWTF    0x100, 6, 0x200, 16              ; L and sentinel index\n".toList =
        some [.store 0x100 [0x62, 0x61], .command .bwtf 0x100 6 0x200 16 0] ∧
      readListing "HUFD 0x108, 9, 0x200, 7, 7".toList = some [.command .hufd 0x108 9 0x200 7 7] ∧
      readListing "HUFD 0x108, 9, 0x200".toList = none := by decide +kernel
/-- The canonical form of `M` after a write out of order and a second write to one address. -/
theorem test_memory_is_canonical : Memory.setByte (Memory.setByte [(4, 7), (9, 8)] 5 1) 9 2 = [(4, 7), (5, 1), (9, 2)] := by
  decide +kernel

/-! ### Witnesses: the hypotheses of every obligation are met by a concrete state -/

theorem witness_ResetAbandonsTheCommandAndKeepsMemory :
    ({ job .mtfe banana 16 0 with agenda := [.host .reset] } : State).agenda = .host .reset :: [] := rfl

theorem witness_OperandRegisterHoldsWhatIsWritten :
    ∀ r ∈ [Reg.src, Reg.len, Reg.dst, Reg.cap, Reg.aux],
      (hostDoes (.regWrite .word r.offset 5)).status.state ≠ .busy ∧
        (hostDoes (.regWrite .word r.offset 5)).agenda = .host (.regWrite .word r.offset 5) :: [] := by decide

theorem witness_IgnoredRegisterWritesChangeNothing :
    (∀ off ∈ ([0x04, 0x1C, 0x20, 0x24] : List Word), off.toNat % 4 = 0 ∧
      off ∉ ([0x00, 0x08, 0x0C, 0x10, 0x14, 0x18] : List Word)) ∧
    (hostDoes (.regWrite .word 0x04 5)).agenda = .host (.regWrite .word 0x04 5) :: [] ∧
    (hostDoes (.regWrite .word 0x24 5)).agenda = .host (.regWrite .word 0x24 5) :: [] ∧
    ({ job .mtfe banana 16 0 with agenda := [.host (.regWrite .word 0x00 3)] } : State).status.state = .busy :=
  ⟨by simp, rfl, rfl, rfl⟩

theorem witness_RegisterReadReturnsTheValueWithoutSideEffect :
    (0x04 : Word).toNat % 4 = 0 ∧ (hostDoes (.regRead .word 0x04)).agenda = .host (.regRead .word 0x04) :: [] ∧
      (0x24 : Word).toNat % 4 = 0 ∧ (∀ r ∈ allRegs, (0x24 : Word) ≠ r.offset) ∧ (0x04 : Word) = Reg.status.offset ∧
      (hostDoes .wait).status.state ≠ .busy ∧ (hostDoes .wait).agenda = .host .wait :: [] := by decide

theorem witness_StatusWordHasItsFields :
    State.reset.status = { state := .idle, err := 0 } ∧
      (after State.reset (step (State.reset.withFetchWord 32 0))).status = { state := .error, err := 5 } := by decide +kernel

theorem witness_CommandWriteIssuesTheCommand :
    (hostDoes (.regWrite .word 0x00 3)).status.state ≠ .busy ∧
      (hostDoes (.regWrite .word 0x00 3)).agenda = .host (.regWrite .word 0x00 3) :: [] := by decide

/-- Each clause, and an access that is both of the wrong size and misaligned, which falls under the first alone. -/
theorem witness_SubWordOrMisalignedRegisterAccessIsRefused :
    (hostDoes (.regRead .byte 0x04)).agenda = .host (.regRead .byte 0x04) :: [] ∧ AccessSize.byte ≠ .word ∧
      (hostDoes (.regWrite .word 0x03 9)).agenda = .host (.regWrite .word 0x03 9) :: [] ∧ (0x03 : Word).toNat % 4 ≠ 0 ∧
      (hostDoes (.regWrite .half 0x03 9)).agenda = .host (.regWrite .half 0x03 9) :: [] ∧ AccessSize.half ≠ .word := by
  decide

/-- Each clause: the first address that does not exist, the last byte of a held region, and the first byte past it. -/
theorem witness_HostAccessToMemory :
    let s := job .mtfe banana 16 0
    s.cfg.memBytes ≤ (0x1000 : Word).toNat ∧
    (∃ l ∈ s.held, l.dst.toNat ≤ (0x8F : Word).toNat ∧ (0x8F : Word).toNat < l.dst.toNat + l.cap.toNat) ∧
    (∀ l ∈ s.held, ¬ (l.dst.toNat ≤ (0x90 : Word).toNat ∧ (0x90 : Word).toNat < l.dst.toNat + l.cap.toNat)) ∧
    (∃ l ∈ s.held, (l.src.toNat ≤ (0x15 : Word).toNat ∧ (0x15 : Word).toNat < l.src.toNat + l.len.toNat) ∨
      (l.dst.toNat ≤ (0x15 : Word).toNat ∧ (0x15 : Word).toNat < l.dst.toNat + l.cap.toNat)) ∧
    (∀ l ∈ s.held, ¬ ((l.src.toNat ≤ (0x16 : Word).toNat ∧ (0x16 : Word).toNat < l.src.toNat + l.len.toNat) ∨
      (l.dst.toNat ≤ (0x16 : Word).toNat ∧ (0x16 : Word).toNat < l.dst.toNat + l.cap.toNat))) ∧
    (0x90 : Word).toNat < s.cfg.memBytes ∧ (0x8F : Word).toNat < s.cfg.memBytes ∧
    ({ s with agenda := [.host (.memRead 0x90)] } : State).agenda = .host (.memRead 0x90) :: [] ∧
    ({ s with agenda := [.host (.memWrite 0x16 1)] } : State).agenda = .host (.memWrite 0x16 1) :: [] := by decide

theorem witness_RegionsStayHeldUntilCompletionIsSeen :
    ∃ t, step (hostDoes (.regRead .word 0x08)) = .next t ∧ step (hostDoes (.regRead .word 0x08)) = .next t := ⟨_, rfl, rfl⟩

theorem witness_StepRunsTheDecodedCommand :
    (job .mtfe banana 16 0).status.state = .busy ∧ decode (job .mtfe banana 16 0).latched.word = .ok .mtfe ∧
      (job .mtfe banana 16 0).agenda = [] ∧
      ({ job .mtfe banana 16 0 with agenda := [.engine] } : State).agenda = .engine :: [] ∧
      ({ job .mtfe banana 16 0 with agenda := [.host .wait] } : State).agenda = .host .wait :: [] := ⟨rfl, rfl, rfl, rfl, rfl⟩

theorem witness_IllegalWordEndsInIllegalCommand :
    (issue 0x00000101 State.reset).status.state = .busy ∧ rsvField (issue 0x00000101 State.reset).latched.word ≠ 0 ∧
      opcField (issue 0x00000000 State.reset).latched.word = 0x00 ∧
      0x0A < (opcField (issue 0x0000000B State.reset).latched.word).toNat ∧
      (issue 0x00000101 State.reset).agenda = [] := by decide

/-- Both sides of the region check: touching regions pass, overlapping ones and one past the end do not (W13, W16, W10). -/
theorem witness_OperandErrorExactlyWhenTheRegionsAreBad :
    RegionsOk (issue 3 { State.reset with src := 0x10, len := 4, dst := 0x14, cap := 4 }) ∧
      ¬ RegionsOk (issue 3 { State.reset with src := 0x10, len := 4, dst := 0x12, cap := 4 }) ∧
      ¬ RegionsOk (issue 3 { State.reset with src := 0xFFF, len := 2, dst := 0, cap := 2 }) := by decide

theorem witness_BwtfCompletesWithTheTransform :
    let s := job .bwtf banana 7 0
    RegionsOk s ∧ s.latched.len.toNat ≤ s.cfg.maxN ∧ s.latched.len.toNat + 1 ≤ s.latched.cap.toNat := by decide

theorem witness_BwtiCompletesWithTheWalk :
    let s := job .bwti bananaL 7 6
    RegionsOk s ∧ s.latched.len.toNat ≤ s.cfg.maxN + 1 ∧ s.latched.len.toNat ≤ s.latched.cap.toNat ∧
      s.latched.aux.toNat < s.latched.len.toNat := by decide

theorem witness_MtfeCompletesWithTheIndexBuffer :
    let s := job .mtfe banana 6 0
    RegionsOk s ∧ s.latched.len.toNat ≤ s.cfg.maxN + 1 ∧ s.latched.len.toNat ≤ s.latched.cap.toNat := by decide

theorem witness_MtfdCompletesWithTheBytes :
    let s := job .mtfd bananaZ 7 0
    RegionsOk s ∧ s.latched.len.toNat ≤ s.cfg.maxN + 1 ∧ s.latched.len.toNat ≤ s.latched.cap.toNat := by decide

theorem witness_HufeCompletesWithTreeAndPayload :
    let s := job .hufe bananaZ 9 0
    RegionsOk s ∧ s.latched.len.toNat ≤ s.cfg.maxN + 1 ∧ (hufEnc (sourceBytes s)).1.length ≤ s.latched.cap.toNat := by
  decide +kernel

/-- A result of the Huffman decoder as data, so that it can be compared. -/
def decoded (e : Except ErrCode (List Byte × Nat)) : Option (List Byte × Nat) :=
  match e with
  | .ok r => some r
  | .error _ => none

/-- The error of the Huffman decoder as data. -/
def rejected (e : Except ErrCode (List Byte × Nat)) : Option ErrCode :=
  match e with
  | .ok _ => none
  | .error e => some e

theorem decoded_some {e : Except ErrCode (List Byte × Nat)} {r : List Byte × Nat} (h : decoded e = some r) : e = .ok r := by
  cases e <;> simp_all [decoded]

theorem rejected_some {e : Except ErrCode (List Byte × Nat)} {r : ErrCode} (h : rejected e = some r) : e = .error r := by
  cases e <;> simp_all [rejected]

theorem witness_HufdCompletesWithTheSymbols :
    let s := job .hufd bananaH 7 7
    RegionsOk s ∧ s.latched.aux.toNat ≤ s.cfg.maxN + 1 ∧ s.latched.aux.toNat ≤ s.latched.cap.toNat ∧
      hufDec (sourceBytes s) s.latched.aux.toNat = .ok (bananaZ, 7) ∧
      hufDec (sourceBytes (job .hufd (bananaH ++ [0]) 7 7)) 7 = .error .sizeMismatch := by
  refine ⟨by decide, by decide, by decide, decoded_some ?_, rejected_some ?_⟩ <;> decide +kernel

theorem witness_CompCompletesWithTheEnvelope :
    let s := job .comp banana 17 0
    RegionsOk s ∧ s.latched.len.toNat ≤ s.cfg.maxN ∧ (compress (sourceBytes s)).1.length ≤ s.latched.cap.toNat := by
  decide +kernel

theorem witness_DecompCompletesWithTheOriginalBytes :
    let s := job .decomp bananaEnvelope 6 0
    RegionsOk s ∧ 8 ≤ s.latched.len.toNat ∧ envelopeSize (sourceBytes s) ≤ s.cfg.maxN ∧
      envelopeSize (sourceBytes s) ≤ s.latched.cap.toNat ∧ envelopeIndex (sourceBytes s) ≤ envelopeSize (sourceBytes s) ∧
      hufDec ((sourceBytes s).drop 8) (envelopeSize (sourceBytes s) + 1) = .ok (bananaZ, 7) ∧
      hufDec ((sourceBytes (job .decomp (bananaEnvelope ++ [0]) 6 0)).drop 8)
        (envelopeSize (sourceBytes (job .decomp (bananaEnvelope ++ [0]) 6 0)) + 1) = .error .sizeMismatch := by
  refine ⟨by decide, by decide, ?_, ?_, ?_, decoded_some ?_, rejected_some ?_⟩ <;> decide +kernel

theorem witness_HcompCompletesWithTheEnvelope :
    let s := job .hcomp bananaZ 13 0
    RegionsOk s ∧ s.latched.len.toNat ≤ s.cfg.maxN + 1 ∧ (hufEnc (sourceBytes s)).1.length + 4 ≤ s.latched.cap.toNat := by
  decide +kernel

theorem witness_HdecompCompletesWithTheOriginalBytes :
    let s := job .hdecomp ([7, 0, 0, 0] ++ bananaH) 7 0
    RegionsOk s ∧ 4 ≤ s.latched.len.toNat ∧ envelopeSize (sourceBytes s) ≤ s.cfg.maxN + 1 ∧
      envelopeSize (sourceBytes s) ≤ s.latched.cap.toNat ∧
      hufDec ((sourceBytes s).drop 4) (envelopeSize (sourceBytes s)) = .ok (bananaZ, 7) ∧
      hufDec ((sourceBytes (job .hdecomp ([7, 0, 0, 0] ++ bananaH ++ [0]) 7 0)).drop 4)
        (envelopeSize (sourceBytes (job .hdecomp ([7, 0, 0, 0] ++ bananaH ++ [0]) 7 0))) = .error .sizeMismatch := by
  refine ⟨by decide, by decide, ?_, ?_, decoded_some ?_, rejected_some ?_⟩ <;> decide +kernel

/-- A cause and its absence at the boundary, for every command: `CAP` one byte short of the result, and just enough. -/
theorem witness_AllocationErrorExactlyOnItsCauses :
    let z := bananaZ
    (∀ i ∈ [Instr.bwtf, .bwti, .mtfe, .mtfd, .hufe, .hufd, .comp, .decomp, .hcomp, .hdecomp], RegionsOk (job i z 16 0)) ∧
      (7 + 1 > (job .bwtf z 7 0).latched.cap.toNat) ∧ (7 > (job .bwti z 6 0).latched.cap.toNat) ∧
      (7 > (job .mtfe z 6 0).latched.cap.toNat) ∧ (7 > (job .mtfd z 6 0).latched.cap.toNat) ∧
      ((hufEnc z).1.length > (job .hufe z 8 0).latched.cap.toNat) ∧ (7 > (job .hufd bananaH 6 7).latched.cap.toNat) ∧
      ((compress banana).1.length > (job .comp banana 16 0).latched.cap.toNat) ∧
      (envelopeSize bananaEnvelope > (job .decomp bananaEnvelope 5 0).latched.cap.toNat ∧ 8 ≤ bananaEnvelope.length) ∧
      ((hCompress z).1.length > (job .hcomp z 12 0).latched.cap.toNat) ∧
      (envelopeSize ([7, 0, 0, 0] ++ bananaH) > (job .hdecomp ([7, 0, 0, 0] ++ bananaH) 6 0).latched.cap.toNat) := by
  decide +kernel

theorem witness_CorruptStreamFromHeaderOrIndex :
    (RegionsOk (job .decomp [0, 0, 0, 0, 0, 0, 0] 4 0) ∧ (job .decomp [0, 0, 0, 0, 0, 0, 0] 4 0).latched.len.toNat < 8) ∧
    (RegionsOk (job .hdecomp [0, 0, 0] 4 0) ∧ (job .hdecomp [0, 0, 0] 4 0).latched.len.toNat < 4) ∧
    (let s := job .decomp [2, 0, 0, 0, 3, 0, 0, 0] 4 0;
      RegionsOk s ∧ 8 ≤ s.latched.len.toNat ∧ envelopeSize (sourceBytes s) ≤ s.cfg.maxN ∧
        envelopeSize (sourceBytes s) ≤ s.latched.cap.toNat ∧ envelopeSize (sourceBytes s) < envelopeIndex (sourceBytes s)) ∧
    (let s := job .bwti [0x41, 0x42] 4 2;
      RegionsOk s ∧ s.latched.len.toNat ≤ s.cfg.maxN + 1 ∧ s.latched.len.toNat ≤ s.latched.cap.toNat ∧
        s.latched.len.toNat ≤ s.latched.aux.toNat) := by decide +kernel

/-- A command that fails: the truncated tree of 95_test_vectors.md HD6. -/
theorem witness_CommandsReportOnlyTheirErrors :
    ∃ t, exec .hufd (job .hufd [0xA0] 4 1) = .next t ∧ t.status.state = .error := ⟨_, exec_after _ _, by decide +kernel⟩

theorem witness_ErrorEntryChangesOnlyStatusAndResults :
    ∃ t, exec .mtfe (job .mtfe banana 5 0) = .next t ∧ t.status.state = .error := ⟨_, exec_after _ _, by decide +kernel⟩

theorem witness_CommandsChangeOnlyTheirDestination :
    ∃ t, exec .mtfe (job .mtfe banana 6 0) = .next t ∧ t.status.state = .done := ⟨_, exec_after _ _, by decide +kernel⟩

theorem witness_BusyBlockReachesCompletion : (job .mtfe banana 6 0).status.state = .busy := rfl

/-- Two different states with the same operands and source: another register and another byte of `M` differ. -/
theorem witness_CommandIsAFunctionOfOperandsAndSource :
    let s := job .mtfe banana 6 0
    let u := { s with src := 0x77, mem := Memory.setByte s.mem 0x200 1 }
    s.cfg = u.cfg ∧ s.latched = u.latched ∧ s.status.err = u.status.err ∧
      (∀ a, s.latched.src.toNat ≤ a → a < s.latched.src.toNat + s.latched.len.toNat →
        Memory.byteAt s.mem a = Memory.byteAt u.mem a) ∧
      (∃ t, exec .mtfe s = .next t) ∧ ∃ v, exec .mtfe u = .next v := by
  refine ⟨rfl, rfl, rfl, fun a h1 h2 => ?_, ⟨_, exec_after _ _⟩, ⟨_, exec_after _ _⟩⟩
  have h3 : (job .mtfe banana 6 0).latched.src.toNat + (job .mtfe banana 6 0).latched.len.toNat = 22 := by decide
  rw [byteAt_setByte, if_neg (by omega)]

theorem witness_ResetSatisfiesTheInvariant : Config.wf { memBytes := 2 ^ 32, maxN := 2 ^ 32 - 2 } = true := by decide

/-- A state that meets the invariant and takes a step: the host reads a register after reset. -/
theorem witness_EveryStepKeepsTheInvariant :
    Inv (hostDoes (.regRead .word 0x08)) ∧ ∃ t, step (hostDoes (.regRead .word 0x08)) = .next t := by
  refine ⟨?_, _, rfl⟩
  constructor <;> simp [hostDoes, State.reset, Config.ofVectors, Config.wf]

/-- Two instances with disjoint regions, both `BUSY`; either may complete first. -/
theorem witness_InstancesRunIndependently :
    let a := { job .mtfe [] 4 0 with mem := [] }
    let b := { job .mtfd [] 4 0 with mem := [], latched := { (job .mtfd [] 4 0).latched with dst := 0x90 } }
    let y : Instances := { shared := [], blocks := [a, b], order := [] }
    (0 : Nat) ≠ 1 ∧ y.blocks[0]? = some a ∧ y.blocks[1]? = some b ∧ a.agenda = [] ∧ b.agenda = [] ∧
      a.status.state = .busy ∧ b.status.state = .busy ∧
      ∃ u v p q, stepInstance 0 y = .next u ∧ stepInstance 1 u = .next v ∧ stepInstance 1 y = .next p ∧
        stepInstance 0 p = .next q :=
  ⟨by decide, rfl, rfl, rfl, rfl, rfl, rfl, _, _, _, _, rfl, rfl, rfl, rfl⟩

theorem witness_SuffixArrayIsTheSortedOffsets : suffixArray banana = [6, 5, 3, 1, 0, 4, 2] := by decide +kernel

theorem witness_LfMappingIsTheStableSortPermutation : (4 : Nat) < bananaL.length ∧
    (List.range 7).map (lfMap (ordinals bananaL 4)) = [1, 5, 6, 4, 0, 2, 3] := by decide +kernel

theorem witness_RotationOrderIsSuffixOrder : (6 : Nat) ≤ banana.length ∧ (0 : Nat) ≤ banana.length := by decide

theorem witness_ForwardTransformFacts : 1 ≤ banana.length := by decide

theorem witness_InverseTransformIsTotal : (0 : Nat) < [(0x7F : Byte)].length ∧ (6 : Nat) < bananaL.length := by decide

theorem witness_MoveToFrontShiftsTheFront : (255 : Nat) < identityPerm.length ∧ (0 : Nat) < identityPerm.length := by
  decide +kernel

theorem witness_MtfEmitsCurrentPositions : (5 : Nat) < banana.length := by decide

theorem witness_MtfDecodeAndEncodeAreInverse : (6 : Nat) ≤ banana.length := by decide

theorem witness_QueueStaysOrderedByWeightThenId :
    let q : List QNode := [⟨3, 1, .leaf 0x42⟩, ⟨8, 0, .leaf 0x41⟩]
    q.Pairwise (fun a b => qnodeBefore a b = true) ∧ ∀ a ∈ q, a.id ≠ 4 := by decide

theorem witness_BuiltTreeHasItsLeavesAndWeight : bananaZ ≠ [] ∧
    (buildRoot (hist bananaZ)).map (fun q => (q.weight, q.id)) = some (7, 8) := by decide +kernel

theorem witness_CodesArePrefixFree : (0x61 : Byte) ∈ bananaZ ∧ (0x6E : Byte) ∈ bananaZ ∧ (0x61 : Byte) ≠ 0x6E ∧
    codeOf (codes (build (hist bananaZ))) 0x61 = [true, true, false] ∧
    codeOf (codes (build (hist bananaZ))) 0x6E = [false, false] := by decide +kernel

theorem witness_DeserializerReadsBackTheTree : (treeSymbols (.node (.leaf 0x41) (.leaf 0x42))).Nodup ∧
    build (hist [0x41, 0x42]) = some (.node (.leaf 0x41) (.leaf 0x42)) := by decide +kernel

theorem witness_DeserializerBoundsTheTree :
    (∃ r, deser (newReader [0xA0, 0x80] .corruptTree) = .ok (.leaf 0x41, r)) ∧
      deser (newReader [0xA0] .corruptTree) = .error .corruptTree := ⟨⟨_, rfl⟩, rfl⟩

theorem witness_PackedBytesHoldTheBits : (15 : Nat) < 8 * ceil8 9 ∧
    packBits [true, false, false, false, false, false, false, false, true] = [0x80, 0x80] := by decide +kernel

/-- The three clauses of the one-leaf tree: all zeros, a `1` at the last bit asked for, and one bit too few. -/
theorem witness_UnpackerTakesOneBitPerSymbolOfOneLeaf :
    (∀ k, k < 8 → 0 + k < 8 * [(0x00 : Byte)].length ∧ streamBit [0x00] (0 + k) = false) ∧
    ((∀ j, j < 7 → 0 + j < 8 * [(0x01 : Byte)].length ∧ streamBit [0x01] (0 + j) = false) ∧
      7 < 8 * [(0x01 : Byte)].length ∧ streamBit [0x01] 7 = true) ∧
    8 * [(0x00 : Byte)].length ≤ 0 + 8 ∧
    unpack (.node (.leaf 0x41) (.leaf 0x42)) 1 (newReader [] .sizeMismatch) = .error .sizeMismatch :=
  ⟨by decide, by decide, by decide, rfl⟩

theorem witness_DecoderIgnoresPaddingBits :
    let z : List Byte := [0x41]
    let d : List Byte := [0xA0, 0xFF, 0x7F]
    d.length = (hufEnc z).1.length ∧
      ∀ q, q < 24 → q < (serBits (build (hist z))).length ∨
        (8 * (hufEnc z).2 ≤ q ∧ q < 8 * (hufEnc z).2 + (payloadBits z (codes (build (hist z)))).length) →
        streamBit d q = streamBit (hufEnc z).1 q := by decide +kernel

theorem witness_EnvelopeIntegersAreLittleEndian : (2 ^ 32 - 1 : Nat) < 2 ^ 32 ∧ ([0xE8, 3, 0, 0] : List Byte).length = 4 ∧
    u32le 1000 = [0xE8, 0x03, 0x00, 0x00] := by decide +kernel

theorem witness_DecompressUndoesCompress : (0x400 : Nat) ≤ 2 ^ 32 - 2 ∧ banana.length ≤ 6 ∧ banana.length ≤ 0x400 := by decide

theorem witness_DamagedLengthMakesDecompressFail : (0x400 : Nat) ≤ 2 ^ 32 - 2 ∧ banana.length ≤ 0x400 ∧ banana.length ≤ 6 ∧
    (7 : Nat) < 8 ∧ (hufEnc (mtfEnc (bwtFwd banana).1)).2 = 7 ∧ (14 : Nat) < 8 + 7 ∧ (compress banana).1.length = 17 := by
  decide +kernel

/-- The two rows of stage commands on "banana", each stage fed the result of the one before. -/
theorem witness_CompositeCommandsEqualTheStagesInARow :
    let result := fun t : State => memRead t.mem t.latched.dst.toNat t.rlen.toNat
    let run := fun (i : Instr) (src : List Byte) (aux : Word) => after State.reset (exec i (job i src 32 aux))
    ((run .bwtf banana 0).status.state = .done ∧ sourceBytes (job .mtfe bananaL 32 0) = result (run .bwtf banana 0)) ∧
    ((run .mtfe bananaL 0).status.state = .done ∧ sourceBytes (job .hufe bananaZ 32 0) = result (run .mtfe bananaL 0)) ∧
    (run .hufe bananaZ 0).status.state = .done ∧ (run .comp banana 0).status.state = .done ∧
    (run .decomp bananaEnvelope 0).status.state = .done ∧
    sourceBytes (job .hufd bananaH 32 7) = (sourceBytes (job .decomp bananaEnvelope 32 0)).drop 8 ∧
    ((run .hufd bananaH 7).status.state = .done ∧ sourceBytes (job .mtfd bananaZ 32 0) = result (run .hufd bananaH 7)) ∧
    ((run .mtfd bananaZ 0).status.state = .done ∧ sourceBytes (job .bwti bananaL 32 4) = result (run .mtfd bananaZ 0)) ∧
    (run .bwti bananaL 4).status.state = .done := by decide +kernel

end Sys2Proof.Tests
end

section
/-! SUPPORT. The register window as lemmas: which register stands at an offset, what reset leaves in it, and what a read
and a write of an offset are (10_state.md R20 to R27). -/

namespace Sys2Proof.Machine

open Sys2Proof

/-! ### Registers and offsets -/

@[simp] theorem regAt_offset (r : Reg) : regAt r.offset = some r := by cases r <;> rfl

/-- The register at an offset is the one whose offset it is (10_state.md R20). -/
theorem regAt_eq_some_iff {off : Word} {r : Reg} : regAt off = some r ↔ off = r.offset := by
  constructor
  · intro h
    unfold regAt at h
    have hoff := List.find?_some h
    exact (beq_iff_eq.1 hoff).symm
  · rintro rfl
    exact regAt_offset r

/-- Any other offset has no register (10_state.md R26). -/
theorem regAt_eq_none_iff {off : Word} : regAt off = none ↔ ∀ r : Reg, off ≠ r.offset := by
  simp only [Option.eq_none_iff_forall_ne_some, ne_eq, regAt_eq_some_iff]

@[simp] theorem readOffset_offset (s : State) (r : Reg) : readOffset s r.offset = s.reg r := by simp [readOffset]

theorem readOffset_of_regAt_none {off : Word} (h : regAt off = none) (s : State) : readOffset s off = 0 := by
  simp [readOffset, h]

/-- Where every register holds 0, every offset reads 0 (10_state.md R26, R42). -/
theorem readOffset_eq_zero {s : State} (h : ∀ r, s.reg r = 0) (off : Word) : readOffset s off = 0 := by
  cases hr : regAt off with
  | none => exact readOffset_of_regAt_none hr s
  | some r => rw [regAt_eq_some_iff.1 hr, readOffset_offset, h]

/-- `IDLE` with no error reads 0 (10_state.md R24, R25). -/
theorem statusWord_idle : Status.word { state := .idle, err := 0 } = 0 := by decide

@[simp] theorem reg_resetWith (c : Config) (r : Reg) : (State.resetWith c).reg r = 0 := by
  cases r with
  | status => exact statusWord_idle
  | _ => rfl

@[simp] theorem reg_resetEvent (s : State) (r : Reg) : (resetEvent s).reg r = 0 := by
  cases r with
  | status => exact statusWord_idle
  | _ => rfl

/-! ### `STATE` as a test -/

theorem busy_iff {s : State} : s.busy = true ↔ s.status.state = .busy := by simp [State.busy]

theorem not_busy_iff {s : State} : s.busy = false ↔ s.status.state ≠ .busy := by simp [State.busy]

theorem completed_iff {s : State} : s.completed = true ↔ s.status.state = .done ∨ s.status.state = .error := by
  simp [State.completed]

/-! ### Reads -/

theorem handBack_eq (s : State) :
    handBack s = { s with held := if s.status.state = .done ∨ s.status.state = .error then [] else s.held } := by
  simp only [handBack, completed_iff]
  split <;> rfl

/-- A read joins the host's record; one of `STATUS` that sees completion also hands the regions back (20_memory.md R76). -/
theorem readRegister_eq (off : Word) (s : State) :
    readRegister off s = { s with
      seen := readOffset s off :: s.seen
      held := if off = Reg.status.offset ∧ (s.status.state = .done ∨ s.status.state = .error) then [] else s.held } := by
  by_cases hoff : off = Reg.status.offset
  · simp [readRegister, hoff, handBack_eq, observe]
  · have hr : regAt off ≠ some .status := mt regAt_eq_some_iff.1 hoff
    simp [readRegister, hoff, observe]

/-! ### Writes -/

/-- A value put in an operand register; the other four registers take none (10_state.md R21, R22, R24). -/
def setOperand (r : Reg) (v : Word) (s : State) : State :=
  match r with
  | .src => { s with src := v }
  | .len => { s with len := v }
  | .dst => { s with dst := v }
  | .cap => { s with cap := v }
  | .aux => { s with aux := v }
  | .cmd | .status | .rlen | .raux => s

/-- The five registers that hold what the host writes (10_state.md R21). -/
def operandRegs : List Reg := [.src, .len, .dst, .cap, .aux]

section
variable (s : State) (r : Reg) (v : Word)

@[simp] theorem setOperand_cfg : (setOperand r v s).cfg = s.cfg := by cases r <;> rfl
@[simp] theorem setOperand_cmd : (setOperand r v s).cmd = s.cmd := by cases r <;> rfl
@[simp] theorem setOperand_status : (setOperand r v s).status = s.status := by cases r <;> rfl
@[simp] theorem setOperand_rlen : (setOperand r v s).rlen = s.rlen := by cases r <;> rfl
@[simp] theorem setOperand_raux : (setOperand r v s).raux = s.raux := by cases r <;> rfl
@[simp] theorem setOperand_latched : (setOperand r v s).latched = s.latched := by cases r <;> rfl
@[simp] theorem setOperand_mem : (setOperand r v s).mem = s.mem := by cases r <;> rfl
@[simp] theorem setOperand_held : (setOperand r v s).held = s.held := by cases r <;> rfl
@[simp] theorem setOperand_agenda : (setOperand r v s).agenda = s.agenda := by cases r <;> rfl
@[simp] theorem setOperand_seen : (setOperand r v s).seen = s.seen := by cases r <;> rfl

end

theorem reg_setOperand_same {r : Reg} (hr : r ∈ operandRegs) (v : Word) (s : State) : (setOperand r v s).reg r = v := by
  cases r <;> simp [operandRegs] at hr <;> rfl

theorem reg_setOperand_ne {q r : Reg} (h : q ≠ r) (v : Word) (s : State) : (setOperand r v s).reg q = s.reg q := by
  cases r <;> cases q <;> simp [setOperand, State.reg] at h ⊢

theorem writeOffset_busy {s : State} (h : s.busy = true) (off v : Word) : writeOffset off v s = s := by
  simp [writeOffset, h]

theorem writeOffset_cmd {s : State} (h : s.busy = false) (v : Word) : writeOffset Reg.cmd.offset v s = issue v s := by
  simp [writeOffset, h]

theorem writeOffset_reg {s : State} (h : s.busy = false) {r : Reg} (hr : r ≠ .cmd) (v : Word) :
    writeOffset r.offset v s = setOperand r v s := by
  cases r <;> simp [writeOffset, h, setOperand] at hr ⊢

theorem writeOffset_unmapped {off : Word} (h : regAt off = none) (v : Word) (s : State) : writeOffset off v s = s := by
  simp [writeOffset, h]

/-- Everything a register write can do: nothing, or outside `BUSY` issue a command or set an operand register. -/
theorem writeOffset_cases (off v : Word) (s : State) :
    writeOffset off v s = s ∨
      s.busy = false ∧ (writeOffset off v s = issue v s ∨ ∃ r, writeOffset off v s = setOperand r v s) := by
  cases hb : s.busy with
  | true => exact Or.inl (writeOffset_busy hb off v)
  | false =>
    cases hr : regAt off with
    | none => exact Or.inl (writeOffset_unmapped hr v s)
    | some r =>
      obtain rfl := regAt_eq_some_iff.1 hr
      by_cases hcmd : r = .cmd
      · subst hcmd
        exact Or.inr ⟨rfl, Or.inl (writeOffset_cmd hb v)⟩
      · exact Or.inr ⟨rfl, Or.inr ⟨r, writeOffset_reg hb hcmd v⟩⟩

/-! ### The fields of `STATUS` -/

section
variable (st : Status)

theorem statusWord_state : st.word.extractLsb' 0 2 = st.state.code := by
  rw [Status.word, BitVec.extractLsb'_append_eq_right]

theorem statusWord_bits_3_2 : st.word.extractLsb' 2 2 = 0 := by
  rw [Status.word, BitVec.extractLsb'_append_eq_of_le (by decide), BitVec.extractLsb'_append_eq_right]

theorem statusWord_err : st.word.extractLsb' 4 4 = st.err := by
  rw [Status.word, BitVec.extractLsb'_append_eq_of_le (by decide), BitVec.extractLsb'_append_eq_of_le (by decide),
    BitVec.extractLsb'_append_eq_right]

theorem statusWord_bits_31_8 : st.word.extractLsb' 8 24 = 0 := by
  rw [Status.word, BitVec.extractLsb'_append_eq_of_le (by decide), BitVec.extractLsb'_append_eq_of_le (by decide),
    BitVec.extractLsb'_append_eq_left]

end

end Sys2Proof.Machine
end

section
/-! SUPPORT. Decoding as an equation, and the two turns of a step as lemmas: what the agenda hands the turn to, and
everything the engine and the host can do with it. -/

namespace Sys2Proof.Machine

open Sys2Proof

/-! ### Decoding -/

theorem encoding_statement (i : Instr) : Laws.Encoding.Statement i :=
  match i with
  | .bwtf => Laws.Encoding.bwtf
  | .bwti => Laws.Encoding.bwti
  | .mtfe => Laws.Encoding.mtfe
  | .mtfd => Laws.Encoding.mtfd
  | .hufe => Laws.Encoding.hufe
  | .hufd => Laws.Encoding.hufd
  | .comp => Laws.Encoding.comp
  | .decomp => Laws.Encoding.decomp
  | .hcomp => Laws.Encoding.hcomp
  | .hdecomp => Laws.Encoding.hdecomp

theorem wordLegal_encode (i : Instr) : wordLegal (encode i) = true := (encoding_statement i).2.1

theorem decode_encode (i : Instr) : decode (encode i) = .ok i := (encoding_statement i).2.2

/-- A row compares every bit with its command's word (30_encoding.md R91). -/
theorem opcodeTable_row : ∀ r ∈ opcodeTable, r.mask = BitVec.allOnes 32 ∧ r.pattern = encode r.instr := by decide

/-- So a row is selected by that word alone. -/
theorem eq_encode_of_selects {r : OpcodeRow} {w : Word} (hr : r ∈ opcodeTable) (h : r.selects w = true) :
    w = encode r.instr := by
  obtain ⟨hmask, hpattern⟩ := opcodeTable_row r hr
  have hw : w &&& r.mask = r.pattern := beq_iff_eq.1 h
  rwa [hmask, hpattern, BitVec.and_allOnes] at hw

/-- A word decodes to a command exactly when it is that command's word (30_encoding.md R91, R94). -/
theorem decode_eq_ok_iff {w : Word} {i : Instr} : decode w = .ok i ↔ w = encode i := by
  constructor
  · intro h
    unfold decode at h
    split at h
    · next r hr =>
      injection h with hi
      rw [← hi]
      exact eq_encode_of_selects (List.mem_of_find?_eq_some hr) (List.find?_some hr :)
    · split at h <;> cases h
  · rintro rfl
    exact decode_encode i

/-- A word that decodes is legal (30_encoding.md R93). -/
theorem wordLegal_of_decode {w : Word} {i : Instr} (h : decode w = .ok i) : wordLegal w = true := by
  rw [decode_eq_ok_iff.1 h]
  exact wordLegal_encode i

/-! ### Whose turn it is -/

theorem step_of_agenda_nil {s : State} (h : s.agenda = []) : step s = engineTurn s := by simp [step, takeTurn, h]

theorem step_of_agenda_engine {s : State} {rest : List Turn} (h : s.agenda = .engine :: rest) :
    step s = engineTurn { s with agenda := rest } := by simp [step, takeTurn, h]

/-- A `WAIT` while `BUSY` gives the engine its turn and stays on the agenda (30_encoding.md R101). -/
theorem step_of_agenda_wait_busy {s : State} {rest : List Turn} (h : s.agenda = .host .wait :: rest)
    (hb : s.busy = true) : step s = engineTurn s := by simp [step, takeTurn, h, hb]

theorem step_of_agenda_host {s : State} {a : HostAction} {rest : List Turn} (h : s.agenda = .host a :: rest)
    (hw : a = .wait → s.busy = false) : step s = hostTurn a { s with agenda := rest } := by
  cases a with
  | wait => simp [step, takeTurn, h, hw rfl]
  | _ => simp [step, takeTurn, h]

/-- An aligned word write goes through to the register window (20_memory.md R69). -/
theorem step_of_regWrite {s : State} {off v : Word} {rest : List Turn} (hoff : off.toNat % 4 = 0)
    (h : s.agenda = .host (.regWrite .word off v) :: rest) :
    step s = .next (writeOffset off v { s with agenda := rest }) := by
  rw [step_of_agenda_host h (by simp)]
  exact registerAccess_word hoff _

/-- An aligned word read goes through to the register window (20_memory.md R69). -/
theorem step_of_regRead {s : State} {off : Word} {rest : List Turn} (hoff : off.toNat % 4 = 0)
    (h : s.agenda = .host (.regRead .word off) :: rest) :
    step s = .next (readRegister off { s with agenda := rest }) := by
  rw [step_of_agenda_host h (by simp)]
  exact registerAccess_word hoff _

/-! ### What a turn can do -/

theorem engineTurn_of_decode {s : State} {i : Instr} (hb : s.busy = true) (hd : decode s.latched.word = .ok i) :
    engineTurn s = exec i s := by simp [engineTurn, hb, hd]

/-- Everything the engine can do: nothing outside `BUSY`; while `BUSY`, commit the result of a legal word, which fits
its region, or enter an error (10_state.md R32). -/
theorem engineTurn_next_cases {s t : State} (h : engineTurn s = .next t) :
    (s.busy = false ∧ t = s) ∨
      s.busy = true ∧
        ((∃ out raux, wordLegal s.latched.word = true ∧ RegionsOk s ∧ out.length ≤ s.latched.cap.toNat ∧
            t = commit out raux s) ∨
          ∃ e, t = errorEntry e s) := by
  unfold engineTurn at h
  split at h
  · next hb =>
    refine Or.inr ⟨hb, ?_⟩
    split at h
    · next i hd =>
      rcases exec_next_cases h with ⟨out, raux, hreg, hlen, -, ht⟩ | ⟨e, -, ht⟩
      · exact Or.inl ⟨out, raux, wordLegal_of_decode hd, hreg, hlen, ht⟩
      · exact Or.inr ⟨e, ht⟩
    · injection h with h
      exact Or.inr ⟨_, h.symm⟩
  · next hb =>
    injection h with h
    exact Or.inl ⟨by simpa using hb, h.symm⟩

theorem hostMemRead_next {a : Word} {s t : State} (h : hostMemRead a s = .next t) : ∃ v, t = observe v s := by
  unfold hostMemRead at h
  split at h
  · cases h
  · split at h
    · cases h
    · injection h with h
      exact ⟨_, h.symm⟩

theorem hostMemWrite_next {a : Word} {b : Byte} {s t : State} (h : hostMemWrite a b s = .next t) :
    a.toNat < s.cfg.memBytes ∧ t = { s with mem := Memory.setByte s.mem a.toNat b } := by
  unfold hostMemWrite at h
  split at h
  · cases h
  · next ha =>
    split at h
    · cases h
    · injection h with h
      exact ⟨by omega, h.symm⟩

/-- Everything a host action can do to the block. -/
theorem hostTurn_next_cases {a : HostAction} {s t : State} (h : hostTurn a s = .next t) :
    (∃ off, t = readRegister off s) ∨ (∃ off v, t = writeOffset off v s) ∨ (∃ v, t = observe v s) ∨
      (∃ x b, x < s.cfg.memBytes ∧ t = { s with mem := Memory.setByte s.mem x b }) ∨ t = resetEvent s := by
  cases a with
  | regRead size off => exact Or.inl ⟨off, (registerAccess_next h).2.2⟩
  | regWrite size off v => exact Or.inr (Or.inl ⟨off, v, (registerAccess_next h).2.2⟩)
  | memRead x => exact Or.inr (Or.inr (Or.inl (hostMemRead_next h)))
  | memWrite x b => exact Or.inr (Or.inr (Or.inr (Or.inl ⟨x.toNat, b, hostMemWrite_next h⟩)))
  | wait =>
    injection h with h
    exact Or.inl ⟨_, h.symm⟩
  | reset =>
    injection h with h
    exact Or.inr (Or.inr (Or.inr (Or.inr h.symm)))

end Sys2Proof.Machine
end

section
/-! SUPPORT. The invariant of the block, one lemma per operation that a step is made of. -/

namespace Sys2Proof.Machine

open Sys2Proof

theorem inv_resetWith {c : Config} (hc : c.wf = true) : Inv (State.resetWith c) where
  cfgOk := hc
  memWf := List.Pairwise.nil
  memInside := by simp
  errExact := by simp
  errKnown := by simp
  noResult := by simp
  idleCmd := by simp
  cmdLatched := by simp
  busyLatched := by simp
  busyHeld := by simp
  doneLegal := by simp
  doneFits := by simp

section
variable {s : State}

/-- The invariant does not speak of the agenda. -/
theorem Inv.withAgenda (hs : Inv s) (rest : List Turn) : Inv { s with agenda := rest } := { hs with }

/-- The invariant does not speak of the host's record. -/
theorem Inv.observe (hs : Inv s) (v : Word) : Inv (observe v s) := { hs with }

theorem Inv.readRegister (hs : Inv s) (off : Word) : Inv (readRegister off s) := by
  rw [readRegister_eq]
  refine { hs with busyHeld := fun hb => ?_ }
  have hnot : ¬ (s.status.state = .done ∨ s.status.state = .error) := by
    simp only [show s.status.state = .busy from hb]
    decide
  simpa [hnot] using hs.busyHeld hb

/-- The issue step establishes the clauses on `BUSY` (10_state.md R31). -/
theorem Inv.issue (hs : Inv s) (w : Word) : Inv (issue w s) where
  cfgOk := hs.cfgOk
  memWf := hs.memWf
  memInside := hs.memInside
  errExact := by simp
  errKnown := by simp
  noResult := by simp
  idleCmd := by simp
  cmdLatched := by simp
  busyLatched := by simp
  busyHeld := by simp
  doneLegal := by simp
  doneFits := by simp

/-- Outside `BUSY` the operand registers are free (10_state.md R21). -/
theorem Inv.setOperand (hs : Inv s) (hb : s.busy = false) (r : Reg) (v : Word) : Inv (setOperand r v s) where
  cfgOk := by simpa using hs.cfgOk
  memWf := by simpa using hs.memWf
  memInside := by simpa using hs.memInside
  errExact := by simpa using hs.errExact
  errKnown := by simpa using hs.errKnown
  noResult := by simpa using hs.noResult
  idleCmd := by simpa using hs.idleCmd
  cmdLatched := by simpa using hs.cmdLatched
  busyLatched := by simp [not_busy_iff.1 hb]
  busyHeld := by simp [not_busy_iff.1 hb]
  doneLegal := by simpa using hs.doneLegal
  doneFits := by simpa using hs.doneFits

theorem Inv.writeOffset (hs : Inv s) (off v : Word) : Inv (writeOffset off v s) := by
  rcases writeOffset_cases off v s with ht | ⟨hb, ht | ⟨r, ht⟩⟩ <;> rw [ht]
  · exact hs
  · exact hs.issue v
  · exact hs.setOperand hb r v

theorem Inv.setByte (hs : Inv s) {x : Nat} (hx : x < s.cfg.memBytes) (b : Byte) :
    Inv { s with mem := Memory.setByte s.mem x b } := by
  refine { hs with memWf := setByte_wf hs.memWf x b, memInside := fun c hc => ?_ }
  rcases mem_setByte hc with rfl | hc
  · exact hx
  · exact hs.memInside c hc

theorem Inv.resetEvent (hs : Inv s) : Inv (resetEvent s) :=
  { inv_resetWith hs.cfgOk with memWf := hs.memWf, memInside := hs.memInside }

/-- The codes of 60_exceptions.md R270: 1 to 6. -/
theorem errCode_range (e : ErrCode) : 1 ≤ e.code.toNat ∧ e.code.toNat ≤ 6 := by cases e <;> decide

theorem errCode_ne_zero (e : ErrCode) : e.code ≠ 0 := fun h => by
  have hpos := (errCode_range e).1
  simp [h] at hpos

/-- Error entry from `BUSY` (60_exceptions.md R280). -/
theorem Inv.errorEntry (hs : Inv s) (hb : s.busy = true) (e : ErrCode) : Inv (errorEntry e s) where
  cfgOk := hs.cfgOk
  memWf := hs.memWf
  memInside := hs.memInside
  errExact := by simpa using errCode_ne_zero e
  errKnown := (errCode_range e).2
  noResult := by simp
  idleCmd := by simp
  cmdLatched := fun _ => hs.cmdLatched (by simp [busy_iff.1 hb])
  busyLatched := by simp
  busyHeld := by simp
  doneLegal := by simp
  doneFits := by simp

/-- `RLEN` holds the length of a result that fits the capacity, with nothing cut off (20_memory.md R65). -/
theorem commit_rlen_toNat {out : List Byte} (h : out.length ≤ s.latched.cap.toNat) (raux : Nat) :
    (commit out raux s).rlen.toNat = out.length := by
  have hcap := s.latched.cap.isLt
  rw [commit_rlen, BitVec.toNat_ofNat, Nat.mod_eq_of_lt (by omega)]

/-- A commit from `BUSY` of a legal word's result that fits its region (10_state.md R32). -/
theorem Inv.commit (hs : Inv s) (hb : s.busy = true) (hw : wordLegal s.latched.word = true) (hreg : RegionsOk s)
    {out : List Byte} (hlen : out.length ≤ s.latched.cap.toNat) (raux : Nat) : Inv (commit out raux s) := by
  have hstate : s.status.state = .busy := busy_iff.1 hb
  have hcmd : s.cmd = s.latched.word := hs.cmdLatched (by simp [hstate])
  have herr : s.status.err = 0 := by simpa [hstate] using hs.errExact
  obtain ⟨-, hdst, -⟩ := hreg
  exact
    { cfgOk := hs.cfgOk
      memWf := memWrite_wf hs.memWf _
      memInside := fun c hc => by
        rcases mem_memWrite hc with hc | hc
        · simp only [commit_cfg]; omega
        · exact hs.memInside c hc
      errExact := by simp [herr]
      errKnown := hs.errKnown
      noResult := by simp
      idleCmd := by simp
      cmdLatched := fun _ => hcmd
      busyLatched := by simp
      busyHeld := by simp
      doneLegal := fun _ => by simpa [hcmd] using hw
      doneFits := fun _ => (commit_rlen_toNat hlen raux).trans_le hlen }

theorem Inv.engineTurn {t : State} (hs : Inv s) (h : engineTurn s = .next t) : Inv t := by
  rcases engineTurn_next_cases h with ⟨-, rfl⟩ | ⟨hb, ⟨out, raux, hw, hreg, hlen, rfl⟩ | ⟨e, rfl⟩⟩
  · exact hs
  · exact hs.commit hb hw hreg hlen raux
  · exact hs.errorEntry hb e

theorem Inv.hostTurn {t : State} {a : HostAction} (hs : Inv s) (h : hostTurn a s = .next t) : Inv t := by
  rcases hostTurn_next_cases h with ⟨off, rfl⟩ | ⟨off, v, rfl⟩ | ⟨v, rfl⟩ | ⟨x, b, hx, rfl⟩ | rfl
  · exact hs.readRegister off
  · exact hs.writeOffset off v
  · exact hs.observe v
  · exact hs.setByte hx b
  · exact hs.resetEvent

theorem Inv.step {t : State} (hs : Inv s) (h : step s = .next t) : Inv t := by
  rcases step_cases s with ⟨hstep, -⟩ | ⟨rest, -, hstep⟩ | ⟨a, rest, -, -, hstep⟩ <;> rw [hstep] at h
  · exact hs.engineTurn h
  · exact (hs.withAgenda rest).engineTurn h
  · exact (hs.withAgenda rest).hostTurn h

/-! ### The parameters -/

theorem writeOffset_cfg (off v : Word) : (writeOffset off v s).cfg = s.cfg := by
  rcases writeOffset_cases off v s with ht | ⟨-, ht | ⟨r, ht⟩⟩ <;> simp [ht]

theorem engineTurn_cfg {t : State} (h : engineTurn s = .next t) : t.cfg = s.cfg := by
  rcases engineTurn_next_cases h with ⟨-, rfl⟩ | ⟨-, ⟨out, raux, -, -, -, rfl⟩ | ⟨e, rfl⟩⟩ <;> rfl

theorem hostTurn_cfg {t : State} {a : HostAction} (h : hostTurn a s = .next t) : t.cfg = s.cfg := by
  rcases hostTurn_next_cases h with ⟨off, rfl⟩ | ⟨off, v, rfl⟩ | ⟨v, rfl⟩ | ⟨x, b, -, rfl⟩ | rfl
  · rw [readRegister_eq]
  · exact writeOffset_cfg off v
  · rfl
  · rfl
  · rfl

/-- No step changes the parameters (00_scope.md R6). -/
theorem step_cfg {t : State} (h : step s = .next t) : t.cfg = s.cfg := by
  rcases step_cases s with ⟨hstep, -⟩ | ⟨rest, -, hstep⟩ | ⟨a, rest, -, -, hstep⟩ <;> rw [hstep] at h
  · exact engineTurn_cfg h
  · exact (engineTurn_cfg h :)
  · exact (hostTurn_cfg h :)

end

end Sys2Proof.Machine
end

section
/-! SUPPORT. What every command leaves alone, and what its result depends on. -/

namespace Sys2Proof.Machine

open Sys2Proof

/-- Outside the stored bytes a commit leaves `M` as it was (20_memory.md R65). -/
theorem byteAt_commit_outside {s : State} {out : List Byte} {raux a : Nat}
    (h : a < s.latched.dst.toNat ∨ s.latched.dst.toNat + out.length ≤ a) :
    Memory.byteAt (commit out raux s).mem a = Memory.byteAt s.mem a := by
  rw [commit_mem, byteAt_memWrite, if_neg (by omega)]

/-- Inside them stands the result (20_memory.md R65). -/
theorem byteAt_commit_inside {s : State} {out : List Byte} {raux k : Nat} (h : k < out.length) :
    Memory.byteAt (commit out raux s).mem (s.latched.dst.toNat + k) = out.getD k 0 := by
  rw [commit_mem, byteAt_memWrite, if_pos (by omega), Nat.add_sub_cancel_left]

/-- Regions in order: no source byte is among the first bytes of the destination (20_memory.md R70, R71). -/
theorem RegionsOk.source_outside {s : State} (hreg : RegionsOk s) {n a : Nat} (hn : n ≤ s.latched.cap.toNat)
    (hlo : s.latched.src.toNat ≤ a) (hhi : a < s.latched.src.toNat + s.latched.len.toNat) :
    a < s.latched.dst.toNat ∨ s.latched.dst.toNat + n ≤ a := by
  obtain ⟨-, -, hdisjoint⟩ := hreg
  omega

/-- The source bytes depend on the operands and on `M` in the source region alone (20_memory.md R70). -/
theorem sourceBytes_congr {s u : State} (hl : s.latched = u.latched)
    (hm : ∀ a, s.latched.src.toNat ≤ a → a < s.latched.src.toNat + s.latched.len.toNat →
      Memory.byteAt s.mem a = Memory.byteAt u.mem a) : sourceBytes s = sourceBytes u := by
  unfold sourceBytes
  rw [← hl]
  exact memRead_congr fun i hi => hm _ (by omega) (by omega)

/-- What a command computes depends on the parameters, the operands and the source bytes alone (10_state.md R40). -/
theorem execBody_congr {s u : State} (hc : s.cfg = u.cfg) (hl : s.latched = u.latched)
    (hx : sourceBytes s = sourceBytes u) (body : Body) : execBody body s = execBody body u := by
  simp only [execBody, hc, hl, hx]

end Sys2Proof.Machine
end

section
/-! The statements about the registers, the commands' frame and the invariant (10_state.md), settled. -/

namespace Sys2Proof.Machine

open Sys2Proof

/-- Settles O34: each operation a step is made of keeps the invariant. -/
theorem everyStepKeepsTheInvariant : Obligations.EveryStepKeepsTheInvariant :=
  fun _ _ h => ⟨fun hs => hs.step h, step_cfg h⟩

/-- Settles O5: the write is `setOperand`. -/
theorem operandRegisterHoldsWhatIsWritten : Obligations.OperandRegisterHoldsWhatIsWritten := by
  intro s r v rest hb hr hag
  have hcmd : r ≠ .cmd := by rintro rfl; simp at hr
  have hoff : r.offset.toNat % 4 = 0 := by cases r <;> rfl
  have hb' : ({ s with agenda := rest } : State).busy = false := not_busy_iff.2 hb
  have hv := reg_setOperand_same hr v { s with agenda := rest }
  refine ⟨setOperand r v { s with agenda := rest }, ?_, hv, ?_, fun q hq => ?_, ?_⟩
  · rw [step_of_regWrite hoff hag, writeOffset_reg hb' hcmd]
  · rw [readOffset_offset, hv]
  · rw [reg_setOperand_ne hq]
    cases q <;> rfl
  · simp

/-- Settles O6: while `BUSY` no write does anything, and otherwise the offset has a register that takes no value, or
none. -/
theorem ignoredRegisterWritesChangeNothing : Obligations.IgnoredRegisterWritesChangeNothing := by
  intro s off v rest hoff hignored hag
  rw [step_of_regWrite hoff hag]
  congr 1
  cases hb : ({ s with agenda := rest } : State).busy with
  | true => exact writeOffset_busy hb off v
  | false =>
    have hnot := hignored.resolve_left (not_busy_iff.1 hb)
    cases hr : regAt off with
    | none => exact writeOffset_unmapped hr v _
    | some r =>
      obtain rfl := regAt_eq_some_iff.1 hr
      have hcmd : r ≠ .cmd := by rintro rfl; exact hnot (by decide)
      rw [writeOffset_reg hb hcmd]
      cases r <;> simp [Reg.offset] at hnot <;> rfl

/-- Settles O7: both reads are `readRegister`, whose whole effect is on `seen` and `held`. -/
theorem registerReadReturnsTheValueWithoutSideEffect : Obligations.RegisterReadReturnsTheValueWithoutSideEffect := by
  intro s rest
  refine ⟨fun off hoff hag => ⟨readOffset s off, ?_, ?_, fun hnone => ?_⟩, fun hb hag => ?_⟩
  · rw [step_of_regRead hoff hag, readRegister_eq]
    rfl
  · rintro r rfl
    exact readOffset_offset s r
  · exact readOffset_of_regAt_none (regAt_eq_none_iff.2 hnone) s
  · rw [step_of_agenda_host hag fun _ => not_busy_iff.2 hb, hostTurn, readRegister_eq, readOffset_offset]
    simp only [true_and]
    rfl

/-- Settles O30: a commit stores its result and no more, and the result lies outside the source region. -/
theorem commandsChangeOnlyTheirDestination : Obligations.CommandsChangeOnlyTheirDestination := by
  intro i s t h
  rcases exec_next_cases h with ⟨out, raux, hreg, hlen, -, rfl⟩ | ⟨e, -, rfl⟩
  · rw [commit_rlen_toNat hlen]
    exact ⟨rfl, hlen, fun a ha => byteAt_commit_outside ha,
      fun a hlo hhi => byteAt_commit_outside (hreg.source_outside hlen hlo hhi)⟩
  · exact ⟨rfl, by simp, fun _ _ => rfl, fun _ _ _ => rfl⟩

/-- Settles O32: both states run the body on the same inputs, so they commit the same result or enter the same error. -/
theorem commandIsAFunctionOfOperandsAndSource : Obligations.CommandIsAFunctionOfOperandsAndSource := by
  intro i s u t v hc hl herr hm ht hv
  have hbody : execBody (bodyOf i) s = execBody (bodyOf i) u := execBody_congr hc hl (sourceBytes_congr hl hm) _
  rcases exec_next_cases ht with ⟨out, raux, -, hlen, hs, rfl⟩ | ⟨e, hs, rfl⟩ <;>
    rcases exec_next_cases hv with ⟨out', raux', -, -, hu, rfl⟩ | ⟨e', hu, rfl⟩ <;>
    rw [hs, hu] at hbody
  · obtain ⟨rfl, rfl⟩ : out = out' ∧ raux = raux' := by simpa using hbody
    refine ⟨by simp [herr], rfl, rfl, fun k hk => ?_⟩
    rw [commit_rlen_toNat hlen] at hk
    rw [byteAt_commit_inside hk, hl, byteAt_commit_inside hk]
  · cases hbody
  · cases hbody
  · cases hbody
    exact ⟨rfl, rfl, rfl, fun k hk => by simp at hk⟩

/-- Settles O3. -/
theorem afterResetEveryRegisterHoldsZero : Obligations.AfterResetEveryRegisterHoldsZero :=
  fun c => ⟨reg_resetWith c, readOffset_eq_zero (reg_resetWith c), rfl, rfl⟩

/-- Settles O4: the step is `resetEvent`. -/
theorem resetAbandonsTheCommandAndKeepsMemory : Obligations.ResetAbandonsTheCommandAndKeepsMemory := by
  intro s rest hag
  refine ⟨resetEvent { s with agenda := rest }, ?_, reg_resetEvent _, rfl, fun _ => rfl, rfl, rfl, rfl, rfl, rfl⟩
  rw [step_of_agenda_host hag (by simp), hostTurn]

/-- Settles O8: each field is one of the four parts the word is put together from. -/
theorem statusWordHasItsFields : Obligations.StatusWordHasItsFields := by
  intro s st e hst
  have hreg : s.reg .status = s.status.word := rfl
  rw [hreg, statusWord_state, statusWord_bits_3_2, statusWord_err, statusWord_bits_31_8, hst]
  refine ⟨?_, rfl, rfl, rfl⟩
  cases st <;> rfl

/-- Settles O9: the write is `issue`. -/
theorem commandWriteIssuesTheCommand : Obligations.CommandWriteIssuesTheCommand := by
  intro s w rest hb hag
  rw [step_of_regWrite (by decide) hag]
  exact congrArg _ (writeOffset_cmd (s := { s with agenda := rest }) (not_busy_iff.2 hb) w)

/-- Settles O13: each way the turn comes to the engine. -/
theorem stepRunsTheDecodedCommand : Obligations.StepRunsTheDecodedCommand := by
  intro s i hb hd
  have hbusy : s.busy = true := busy_iff.2 hb
  refine ⟨fun hag => ?_, fun rest hag => ?_, fun rest hag => ?_⟩
  · rw [step_of_agenda_nil hag, engineTurn_of_decode hbusy hd]
  · rw [step_of_agenda_engine hag]
    exact engineTurn_of_decode (s := { s with agenda := rest }) hbusy hd
  · rw [step_of_agenda_wait_busy hag hbusy, engineTurn_of_decode hbusy hd]

/-- Settles O33. -/
theorem resetSatisfiesTheInvariant : Obligations.ResetSatisfiesTheInvariant :=
  ⟨fun _ hc => inv_resetWith hc, inv_resetWith (by decide)⟩

end Sys2Proof.Machine
end

section
/-! SUPPORT. The host's access to the register window and to `M` as equations, one per outcome, and when a turn stops
the machine (20_memory.md R60, R69, R77). -/

namespace Sys2Proof.Machine

open Sys2Proof

/-! ### The register window -/

theorem registerAccess_subword {size : AccessSize} (h : size ≠ .word) (off : Word) (k : State) :
    registerAccess size off k = .refused .registerAccessSize := if_pos h

theorem registerAccess_misaligned {off : Word} (h : off.toNat % 4 ≠ 0) (k : State) :
    registerAccess .word off k = .refused .registerAccessMisaligned := by simp [registerAccess, h]

/-- Nothing but its size and its alignment stops a register access (20_memory.md R69). -/
theorem registerAccess_stops_iff {size : AccessSize} {off : Word} {k : State} :
    (∀ t, registerAccess size off k ≠ .next t) ↔ size ≠ .word ∨ off.toNat % 4 ≠ 0 := by
  constructor
  · intro h
    by_contra hok
    obtain ⟨rfl, hoff⟩ : size = .word ∧ off.toNat % 4 = 0 := by simpa using hok
    exact h k (registerAccess_word hoff k)
  · rintro hbad t ht
    obtain ⟨hsize, hoff, -⟩ := registerAccess_next ht
    exact hbad.elim (· hsize) (· hoff)

/-! ### The regions that are the engine's -/

theorem inRegion_iff {base n : Word} {a : Nat} :
    inRegion base n a = true ↔ base.toNat ≤ a ∧ a < base.toNat + n.toNat := by simp [inRegion]

theorem any_forbidsRead_iff {held : List Latched} {a : Nat} :
    held.any (fun l => l.forbidsRead a) = true ↔
      ∃ l ∈ held, l.dst.toNat ≤ a ∧ a < l.dst.toNat + l.cap.toNat := by
  simp only [List.any_eq_true, Latched.forbidsRead, inRegion_iff]

theorem any_forbidsWrite_iff {held : List Latched} {a : Nat} :
    held.any (fun l => l.forbidsWrite a) = true ↔
      ∃ l ∈ held, (l.src.toNat ≤ a ∧ a < l.src.toNat + l.len.toNat) ∨
        (l.dst.toNat ≤ a ∧ a < l.dst.toNat + l.cap.toNat) := by
  simp only [List.any_eq_true, Latched.forbidsWrite, Bool.or_eq_true, inRegion_iff]

/-! ### The bytes of `M` -/

section
variable {s : State} {a : Word} (b : Byte)

theorem hostMemRead_outside (h : s.cfg.memBytes ≤ a.toNat) : hostMemRead a s = .fault .noSuchAddress := if_pos h

theorem hostMemRead_held (h : a.toNat < s.cfg.memBytes)
    (hl : s.held.any (fun l => l.forbidsRead a.toNat) = true) : hostMemRead a s = .refused .heldRegion := by
  rw [hostMemRead, if_neg (Nat.not_le.2 h), if_pos hl]

theorem hostMemRead_free (h : a.toNat < s.cfg.memBytes)
    (hl : ¬ s.held.any (fun l => l.forbidsRead a.toNat) = true) :
    hostMemRead a s = .next (observe ((Memory.byteAt s.mem a.toNat).setWidth 32) s) := by
  rw [hostMemRead, if_neg (Nat.not_le.2 h), if_neg hl]

theorem hostMemWrite_outside (h : s.cfg.memBytes ≤ a.toNat) : hostMemWrite a b s = .fault .noSuchAddress := if_pos h

theorem hostMemWrite_held (h : a.toNat < s.cfg.memBytes)
    (hl : s.held.any (fun l => l.forbidsWrite a.toNat) = true) : hostMemWrite a b s = .refused .heldRegion := by
  rw [hostMemWrite, if_neg (Nat.not_le.2 h), if_pos hl]

theorem hostMemWrite_free (h : a.toNat < s.cfg.memBytes)
    (hl : ¬ s.held.any (fun l => l.forbidsWrite a.toNat) = true) :
    hostMemWrite a b s = .next { s with mem := Memory.setByte s.mem a.toNat b } := by
  rw [hostMemWrite, if_neg (Nat.not_le.2 h), if_neg hl]

theorem hostMemRead_stops_iff : (∀ t, hostMemRead a s ≠ .next t) ↔ Forbidden s (.memRead a) := by
  rw [Forbidden, ← any_forbidsRead_iff]
  rcases Nat.lt_or_ge a.toNat s.cfg.memBytes with hin | hout
  · by_cases hl : s.held.any (fun l => l.forbidsRead a.toNat) = true
    · exact iff_of_true (by simp [hostMemRead_held hin hl]) (Or.inr hl)
    · exact iff_of_false (fun h => h _ (hostMemRead_free hin hl)) (by simp [Nat.not_le.2 hin, hl])
  · exact iff_of_true (by simp [hostMemRead_outside hout]) (Or.inl hout)

theorem hostMemWrite_stops_iff : (∀ t, hostMemWrite a b s ≠ .next t) ↔ Forbidden s (.memWrite a b) := by
  rw [Forbidden, ← any_forbidsWrite_iff]
  rcases Nat.lt_or_ge a.toNat s.cfg.memBytes with hin | hout
  · by_cases hl : s.held.any (fun l => l.forbidsWrite a.toNat) = true
    · exact iff_of_true (by simp [hostMemWrite_held b hin hl]) (Or.inr hl)
    · exact iff_of_false (fun h => h _ (hostMemWrite_free b hin hl)) (by simp [Nat.not_le.2 hin, hl])
  · exact iff_of_true (by simp [hostMemWrite_outside b hout]) (Or.inl hout)

end

/-! ### When a turn stops the machine -/

/-- The engine always has a next state (10_state.md R32). -/
theorem engineTurn_total (s : State) : ∃ t, engineTurn s = .next t := by
  cases hb : s.busy with
  | false => exact ⟨s, engineTurn_idle hb⟩
  | true =>
    cases hd : decode s.latched.word with
    | error e => exact ⟨errorEntry .illegalCommand s, by simp [engineTurn, hb, hd]⟩
    | ok i =>
      rw [engineTurn_of_decode hb hd, exec_eq_complete]
      rcases complete_cases (bodyOf i) s with ⟨_, -, h⟩ | ⟨_, -, h⟩
      · exact ⟨_, h⟩
      · exact ⟨_, h⟩

/-- A host action stops the machine exactly when it is forbidden. -/
theorem hostTurn_stops_iff {a : HostAction} {s : State} : (∀ t, hostTurn a s ≠ .next t) ↔ Forbidden s a := by
  cases a with
  | regRead size off => exact registerAccess_stops_iff
  | regWrite size off v => exact registerAccess_stops_iff
  | memRead x => exact hostMemRead_stops_iff
  | memWrite x b => exact hostMemWrite_stops_iff b
  | wait => exact iff_of_false (fun h => h _ rfl) id
  | reset => exact iff_of_false (fun h => h _ rfl) id

/-- Whether an action is forbidden does not depend on what the host does after it. -/
theorem forbidden_withAgenda {s : State} {rest : List Turn} {a : HostAction} :
    Forbidden { s with agenda := rest } a ↔ Forbidden s a := by cases a <;> rfl

end Sys2Proof.Machine
end

section
/-! SUPPORT. The engine's turn as one store: which bytes of `M` it reads, which it writes, and that it goes the same way
over any memory that holds the same source (20_memory.md R65, R70). -/

namespace Sys2Proof.Machine

open Sys2Proof

/-! ### Stores that do not meet -/

/-- Outside its bytes a store leaves `M` as it was (20_memory.md R65). -/
theorem byteAt_memWrite_outside {m : Memory} {a x : Nat} {v : List Byte} (h : x < a ∨ a + v.length ≤ x) :
    Memory.byteAt (memWrite m a v) x = Memory.byteAt m x := by
  rw [byteAt_memWrite, if_neg (by omega)]

/-- Two stores with no byte in common give the same bytes in either order. -/
theorem byteAt_memWrite_comm {m : Memory} {a b x : Nat} {v w : List Byte}
    (h : b ≤ x → x < b + w.length → x < a ∨ a + v.length ≤ x) :
    Memory.byteAt (memWrite (memWrite m a v) b w) x = Memory.byteAt (memWrite (memWrite m b w) a v) x := by
  by_cases hx : b ≤ x ∧ x < b + w.length
  · rw [byteAt_memWrite_outside (h hx.1 hx.2), byteAt_memWrite w, byteAt_memWrite w, if_pos hx, if_pos hx]
  · have hout : x < b ∨ b + w.length ≤ x := by omega
    rw [byteAt_memWrite_outside hout, byteAt_memWrite v, byteAt_memWrite v, byteAt_memWrite_outside hout]

/-- Regions that do not meet: an address in the second is past either end of the first. -/
theorem outside_of_regionsMeet_false {a n b m : Word} (h : regionsMeet a n b m = false) {x : Nat}
    (hlo : b.toNat ≤ x) (hhi : x < b.toNat + m.toNat) : x < a.toNat ∨ a.toNat + n.toNat ≤ x := by
  by_contra hin
  have hmeet : regionsMeet a n b m = true := by
    simp only [regionsMeet, Bool.and_eq_true, decide_eq_true_eq]
    omega
  simp [hmeet] at h

/-- No conflict between two commands: the first's destination has no byte of the second's regions (20_memory.md R80). -/
theorem outside_of_commandsConflict_false {p q : Latched} (h : commandsConflict p q = false) {x : Nat}
    (hx : (q.src.toNat ≤ x ∧ x < q.src.toNat + q.len.toNat) ∨ (q.dst.toNat ≤ x ∧ x < q.dst.toNat + q.cap.toNat)) :
    x < p.dst.toNat ∨ p.dst.toNat + p.cap.toNat ≤ x := by
  obtain ⟨⟨hsrc, hdst⟩, -⟩ : (regionsMeet p.dst p.cap q.src q.len = false ∧
      regionsMeet p.dst p.cap q.dst q.cap = false) ∧ regionsMeet q.dst q.cap p.src p.len = false := by
    simpa only [commandsConflict, Bool.or_eq_false_iff] using h
  rcases hx with ⟨hlo, hhi⟩ | ⟨hlo, hhi⟩
  · exact outside_of_regionsMeet_false hsrc hlo hhi
  · exact outside_of_regionsMeet_false hdst hlo hhi

/-! ### The engine's turn as a store -/

/-- What the engine may store in its turn: no more than the capacity, and nothing outside `BUSY`. -/
def MayStore (s : State) (out : List Byte) : Prop :=
  out.length ≤ s.latched.cap.toNat ∧ (s.busy = false → out = [])

/-- Two memories that a `BUSY` engine cannot tell apart: they hold the same source bytes. -/
def SameSource (s : State) (m k : Memory) : Prop :=
  s.busy = true → ∀ x, s.latched.src.toNat ≤ x → x < s.latched.src.toNat + s.latched.len.toNat →
    Memory.byteAt m x = Memory.byteAt k x

/-- Nothing is always allowed to be stored. -/
theorem mayStore_nil (s : State) : MayStore s [] := ⟨by simp, fun _ => rfl⟩

/-- A command computes the same over any memory with the same source bytes. -/
theorem execBody_withMem {s : State} {m : Memory} (hb : s.busy = true) (hm : SameSource s s.mem m) (body : Body) :
    execBody body { s with mem := m } = execBody body s := by
  have hx : sourceBytes s = sourceBytes { s with mem := m } := sourceBytes_congr rfl (hm hb)
  exact (execBody_congr (by rfl) (by rfl) hx body).symm

/-- A command's turn as a store, over every memory with the same source bytes. -/
theorem exec_store {i : Instr} {s t : State} (hb : s.busy = true) (h : exec i s = .next t) :
    ∃ out, MayStore s out ∧ ∀ m, SameSource s s.mem m →
      exec i { s with mem := m } = .next { t with mem := memWrite m s.latched.dst.toNat out } := by
  rcases exec_next_cases h with ⟨out, raux, -, hlen, hs, rfl⟩ | ⟨e, hs, rfl⟩
  · refine ⟨out, ⟨hlen, by simp [hb]⟩, fun m hm => ?_⟩
    rw [exec_eq_complete, complete, execBody_withMem hb hm, hs]
    rfl
  · refine ⟨[], mayStore_nil s, fun m hm => ?_⟩
    rw [exec_eq_complete, complete, execBody_withMem hb hm, hs]
    rfl

/-- The engine's turn is a change of registers and one store; over any memory with the same source bytes it is the same
change and the same store. -/
theorem engineTurn_store {s t : State} (h : engineTurn s = .next t) :
    ∃ out, MayStore s out ∧ ∀ m, SameSource s s.mem m →
      engineTurn { s with mem := m } = .next { t with mem := memWrite m s.latched.dst.toNat out } := by
  cases hb : s.busy with
  | false =>
    rw [engineTurn_idle hb] at h
    cases h
    exact ⟨[], mayStore_nil s, fun m _ => engineTurn_idle hb⟩
  | true =>
    cases hd : decode s.latched.word with
    | ok i =>
      rw [engineTurn_of_decode hb hd] at h
      obtain ⟨out, hout, hall⟩ := exec_store hb h
      exact ⟨out, hout, fun m hm => (engineTurn_of_decode (s := { s with mem := m }) hb hd).trans (hall m hm)⟩
    | error e =>
      have hturn : ∀ m, engineTurn { s with mem := m } = .next (errorEntry .illegalCommand { s with mem := m }) :=
        fun m => by simp only [engineTurn, State.busy, hd]; exact if_pos hb
      cases (hturn s.mem).symm.trans h
      exact ⟨[], mayStore_nil s, fun m _ => hturn m⟩

/-- A step with nothing on the agenda, for a block beside the memory `m`. -/
theorem step_store {b t : State} {m : Memory} (hag : b.agenda = []) (h : step { b with mem := m } = .next t) :
    ∃ out, MayStore b out ∧ t.mem = memWrite m b.latched.dst.toNat out ∧ ∀ k, SameSource b m k →
      step { b with mem := k } = .next { t with mem := memWrite k b.latched.dst.toNat out } := by
  have hstep : ∀ k, step { b with mem := k } = engineTurn { b with mem := k } := fun _ => step_of_agenda_nil hag
  rw [hstep] at h
  obtain ⟨out, hout, hall⟩ := engineTurn_store h
  have hself := h.symm.trans (hall m fun _ _ _ _ => rfl)
  injection hself with ht
  exact ⟨out, hout, congrArg State.mem ht, fun k hk => (hstep k).trans (hall k hk)⟩

/-! ### Two engines beside one memory -/

/-- Two engines may both have their turn (20_memory.md R80). -/
def NoConflict (p q : State) : Prop := p.busy = true → q.busy = true → commandsConflict p.latched q.latched = false

section
variable {p q : State} {out : List Byte}

/-- What one engine stores lies outside the regions of the other. -/
theorem NoConflict.store_outside (h : NoConflict p q) (hout : MayStore p out) (hq : q.busy = true) {x : Nat}
    (hx : (q.latched.src.toNat ≤ x ∧ x < q.latched.src.toNat + q.latched.len.toNat) ∨
      (q.latched.dst.toNat ≤ x ∧ x < q.latched.dst.toNat + q.latched.cap.toNat)) :
    x < p.latched.dst.toNat ∨ p.latched.dst.toNat + out.length ≤ x := by
  obtain ⟨hlen, hidle⟩ := hout
  cases hp : p.busy with
  | false =>
    rw [hidle hp, List.length_nil]
    omega
  | true =>
    have hcap := outside_of_commandsConflict_false (h hp hq) hx
    omega

/-- So the other still reads the source it had. -/
theorem NoConflict.sameSource (h : NoConflict p q) (hout : MayStore p out) (m : Memory) :
    SameSource q m (memWrite m p.latched.dst.toNat out) :=
  fun hq _ hlo hhi => (byteAt_memWrite_outside (h.store_outside hout hq (Or.inl ⟨hlo, hhi⟩))).symm

/-- And the two stores give the same bytes in either order. -/
theorem NoConflict.stores_comm (h : NoConflict p q) (hout : MayStore p out) {out' : List Byte} (hout' : MayStore q out')
    (m : Memory) (x : Nat) :
    Memory.byteAt (memWrite (memWrite m p.latched.dst.toNat out) q.latched.dst.toNat out') x =
      Memory.byteAt (memWrite (memWrite m q.latched.dst.toNat out') p.latched.dst.toNat out) x := by
  obtain ⟨hlen, hidle⟩ := hout'
  cases hq : q.busy with
  | false =>
    rw [hidle hq]
    rfl
  | true => exact byteAt_memWrite_comm fun hlo hhi => h.store_outside hout hq (Or.inr ⟨hlo, by omega⟩)

end

/-- A block that moves: it conflicts with none of the others, it takes its step on the shared memory, and the others
do not change. -/
theorem stepInstance_next {k : Nat} {y u : Instances} {b : State} (hk : y.blocks[k]? = some b)
    (h : stepInstance k y = .next u) :
    (∀ o ∈ otherBlocks y k, NoConflict b o) ∧ ∃ t, step { b with mem := y.shared } = .next t ∧
      u.shared = t.mem ∧ u.blocks = y.blocks.set k { t with mem := [] } := by
  simp only [stepInstance, hk] at h
  split at h
  · cases h
  · next hconf =>
    split at h
    · cases h
    · split at h
      · next t ht =>
        cases h
        refine ⟨fun o ho hb hbo => ?_, t, ht, rfl, rfl⟩
        by_contra hc
        exact hconf (by simpa [hb] using ⟨o, ho, hbo, by simpa using hc⟩)
      · cases h
      · cases h

/-- A block is among the others of every other block. -/
theorem mem_otherBlocks {y : Instances} {j k : Nat} {b : State} (hjk : j ≠ k) (hk : y.blocks[k]? = some b) :
    b ∈ otherBlocks y j := List.mem_eraseIdx_iff_getElem?.2 ⟨k, hjk.symm, hk⟩

end Sys2Proof.Machine
end

section
/-! The statements about the host's access to `M` and to the register window, and about instances beside one memory
(20_memory.md), settled. -/

namespace Sys2Proof.Machine

open Sys2Proof

/-- Settles O36: neither engine stores into the other's regions, so each makes the same change and the same store in
both orders, and the two stores commute. -/
theorem instancesRunIndependently : Obligations.InstancesRunIndependently := by
  intro y u v p q j k a b hjk hj hk ha hb hu hv hp hq
  obtain ⟨hconf, ta, hta, hum, hub⟩ := stepInstance_next hj hu
  obtain ⟨hconf', tb, htb, hpm, hpb⟩ := stepInstance_next hk hp
  have hab : NoConflict a b := hconf b (mem_otherBlocks hjk hk)
  have hba : NoConflict b a := hconf' a (mem_otherBlocks hjk.symm hj)
  have huk : u.blocks[k]? = some b := by rw [hub, List.getElem?_set_ne hjk, hk]
  have hpj : p.blocks[j]? = some a := by rw [hpb, List.getElem?_set_ne hjk.symm, hj]
  obtain ⟨-, tb', htb', hvm, hvb⟩ := stepInstance_next huk hv
  obtain ⟨-, ta', hta', hqm, hqb⟩ := stepInstance_next hpj hq
  obtain ⟨outA, houtA, hmemA, hallA⟩ := step_store ha hta
  obtain ⟨outB, houtB, hmemB, hallB⟩ := step_store hb htb
  rw [hum, hmemA] at htb'
  rw [hpm, hmemB] at hta'
  cases (hallB _ (hab.sameSource houtA _)).symm.trans htb'
  cases (hallA _ (hba.sameSource houtB _)).symm.trans hta'
  refine ⟨?_, fun x => ?_, tb, htb, ?_⟩
  · rw [hvb, hub, hqb, hpb, List.set_comm _ _ hjk]
  · rw [hvm, hqm]
    exact hab.stores_comm houtA houtB y.shared x
  · rw [hvb, List.getElem?_set_self (List.getElem?_eq_some_iff.1 huk).1]

/-- Settles O11: the step is the host's access, which has three outcomes. -/
theorem hostAccessToMemory : Obligations.HostAccessToMemory := by
  intro s a b rest
  refine ⟨fun hag => ?_, fun hag => ?_⟩
  · rw [step_of_agenda_host hag (by simp), hostTurn, ← any_forbidsRead_iff]
    exact ⟨fun h => hostMemRead_outside h, fun h hl => hostMemRead_held h hl, fun h hl =>
      hostMemRead_free h (by simpa only [any_forbidsRead_iff, not_exists, not_and] using hl)⟩
  · rw [step_of_agenda_host hag (by simp), hostTurn, ← any_forbidsWrite_iff]
    exact ⟨fun h => hostMemWrite_outside b h, fun h hl => hostMemWrite_held b h hl, fun h hl =>
      ⟨_, hostMemWrite_free b h (by simpa only [any_forbidsWrite_iff, not_exists, not_and] using hl), rfl,
        fun x => byteAt_setByte s.mem a.toNat x b⟩⟩

/-- Settles O35: the engine never stops, and a host action stops exactly when it is forbidden. -/
theorem stopsExactlyOnForbiddenHostActions : Obligations.StopsExactlyOnForbiddenHostActions := by
  intro s
  rcases step_cases s with ⟨hstep, hag⟩ | ⟨rest, hag, hstep⟩ | ⟨a, rest, hag, -, hstep⟩ <;> rw [hstep]
  · refine iff_of_false (fun h => (engineTurn_total s).elim h) ?_
    rintro ⟨a, rest, hag', hf⟩
    rcases hag with hnil | ⟨rest', hwait, -⟩
    · simp [hnil] at hag'
    · obtain ⟨rfl, -⟩ : HostAction.wait = a ∧ rest' = rest := by simpa [hwait] using hag'
      exact hf
  · exact iff_of_false (fun h => (engineTurn_total _).elim h) (by simp [hag])
  · rw [hostTurn_stops_iff, forbidden_withAgenda]
    simp [hag]

/-- Settles O10: a read and a write go through the same test. -/
theorem subWordOrMisalignedRegisterAccessIsRefused : Obligations.SubWordOrMisalignedRegisterAccessIsRefused := by
  rintro s size off v rest (hag | hag)
  all_goals
    rw [step_of_agenda_host hag (by simp)]
    refine ⟨fun hsize => registerAccess_subword hsize off _, ?_⟩
    rintro rfl hoff
    exact registerAccess_misaligned hoff _

end Sys2Proof.Machine
end

section
/-! SUPPORT. A command word taken apart into its two fields, which words are legal, and which words the decoder rejects
(30_encoding.md R90, R91, R93). -/

namespace Sys2Proof.Machine

open Sys2Proof

/-- A word is its two fields (30_encoding.md R90). -/
theorem rsvField_append_opcField (w : Word) : rsvField w ++ opcField w = w :=
  BitVec.extractLsb'_append_extractLsb' (w := 24) (len := 8)

theorem encode_injective {i j : Instr} (h : encode i = encode j) : i = j := by
  have hij := decode_encode i
  rw [h, decode_encode] at hij
  exact (Except.ok.inj hij).symm

/-- The opcodes of the commands are 0x01 to 0x0A (30_encoding.md R91). -/
theorem exists_opcodeOf_toNat_eq {n : Nat} (hpos : 1 ≤ n) (hle : n ≤ 0x0A) : ∃ i, (opcodeOf i).toNat = n := by
  interval_cases n
  exacts [⟨.bwtf, rfl⟩, ⟨.bwti, rfl⟩, ⟨.mtfe, rfl⟩, ⟨.mtfd, rfl⟩, ⟨.hufe, rfl⟩, ⟨.hufd, rfl⟩, ⟨.comp, rfl⟩,
    ⟨.decomp, rfl⟩, ⟨.hcomp, rfl⟩, ⟨.hdecomp, rfl⟩]

/-- The legal words are those of the ten commands (30_encoding.md R93). -/
theorem wordLegal_iff_exists_encode {w : Word} : wordLegal w = true ↔ ∃ i, w = encode i := by
  constructor
  · intro h
    obtain ⟨⟨hrsv, hpos⟩, hle⟩ : (rsvField w = 0 ∧ 1 ≤ (opcField w).toNat) ∧ (opcField w).toNat ≤ 0x0A := by
      simpa [wordLegal] using h
    obtain ⟨i, hi⟩ := exists_opcodeOf_toNat_eq hpos hle
    exact ⟨i, by rw [← rsvField_append_opcField w, hrsv, encode, BitVec.eq_of_toNat_eq hi]⟩
  · rintro ⟨i, rfl⟩
    exact wordLegal_encode i

/-- A word is not legal just when a reserved bit is set or the opcode is a reserved one (30_encoding.md R93). -/
theorem not_wordLegal_iff {w : Word} :
    wordLegal w = false ↔ rsvField w ≠ 0 ∨ opcField w = 0x00 ∨ 0x0A < (opcField w).toNat := by
  have hzero : (opcField w).toNat = 0 ↔ opcField w = 0x00 := BitVec.toNat_inj (y := 0x00)
  simp only [wordLegal, Bool.and_eq_false_iff, beq_eq_false_iff_ne, decide_eq_false_iff_not, Nat.not_le,
    Nat.lt_one_iff, hzero, or_assoc]

/-- A word that is not legal is rejected, for its reserved bits before its opcode (30_encoding.md R93). -/
theorem decode_of_not_wordLegal {w : Word} (h : wordLegal w = false) :
    decode w = .error (if rsvField w = 0 then .reservedOpcode else .reservedBits) := by
  have hnone : opcodeTable.find? (fun r => r.selects w) = none := by
    refine List.find?_eq_none.2 fun r hr hsel => ?_
    have hlegal := wordLegal_iff_exists_encode.2 ⟨_, eq_encode_of_selects hr hsel⟩
    exact Bool.false_ne_true (h.symm.trans hlegal)
  rw [decode, hnone]
  exact (apply_ite Except.error _ _ _).symm

/-- The decoder rejects the words that are not legal and no other (30_encoding.md R93). -/
theorem exists_decode_eq_error_iff {w : Word} : (∃ e, decode w = .error e) ↔ wordLegal w = false := by
  constructor
  · rintro ⟨e, he⟩
    refine Bool.eq_false_iff.2 fun hlegal => ?_
    obtain ⟨i, rfl⟩ := wordLegal_iff_exists_encode.1 hlegal
    cases he.symm.trans (decode_encode i)
  · exact fun h => ⟨_, decode_of_not_wordLegal h⟩

/-- The rows of the table are the commands, each with its word (30_encoding.md R91). -/
theorem mem_opcodeTable_iff {r : OpcodeRow} :
    r ∈ opcodeTable ↔ r = ⟨BitVec.allOnes 32, encode r.instr, r.instr⟩ := by
  constructor
  · intro hr
    obtain ⟨hmask, hpattern⟩ := opcodeTable_row r hr
    rw [← hmask, ← hpattern]
  · intro hr
    rw [hr]
    cases r.instr <;> decide

/-- A word matches a row just when it is the word of the row's command (30_encoding.md R91). -/
theorem and_mask_eq_pattern_iff {r : OpcodeRow} {w : Word} (hr : r ∈ opcodeTable) :
    w &&& r.mask = r.pattern ↔ w = encode r.instr := by
  obtain ⟨hmask, hpattern⟩ := opcodeTable_row r hr
  rw [hmask, hpattern, BitVec.and_allOnes]

/-- No two rows match one word (30_encoding.md R94). -/
theorem opcodeTable_rows_disjoint {r q : OpcodeRow} {w : Word} (hr : r ∈ opcodeTable) (hq : q ∈ opcodeTable)
    (hwr : w &&& r.mask = r.pattern) (hwq : w &&& q.mask = q.pattern) : r = q := by
  have hinstr : r.instr = q.instr := encode_injective <|
    ((and_mask_eq_pattern_iff hr).1 hwr).symm.trans ((and_mask_eq_pattern_iff hq).1 hwq)
  rw [mem_opcodeTable_iff.1 hr, mem_opcodeTable_iff.1 hq, hinstr]

/-- Some row of a command matches a word just when the word is the command's (30_encoding.md R91). -/
theorem exists_row_matches_iff {w : Word} {i : Instr} :
    (∃ r ∈ opcodeTable, w &&& r.mask = r.pattern ∧ r.instr = i) ↔ w = encode i := by
  constructor
  · rintro ⟨r, hr, hw, rfl⟩
    exact (and_mask_eq_pattern_iff hr).1 hw
  · intro hw
    have hr : ⟨BitVec.allOnes 32, encode i, i⟩ ∈ opcodeTable := mem_opcodeTable_iff.2 rfl
    exact ⟨_, hr, (and_mask_eq_pattern_iff hr).2 hw, rfl⟩

end Sys2Proof.Machine
end

section
/-! The statements about command words (30_encoding.md R91, R93, R94), settled. -/

namespace Sys2Proof.Machine

open Sys2Proof

/-- Settles O2: a word decodes to a command, and matches its row, just when it is the command's word. -/
theorem everyWordSelectsOneRowOrIsIllegal : Obligations.EveryWordSelectsOneRowOrIsIllegal := fun _ =>
  ⟨fun _ => decode_eq_ok_iff, fun _ _ => opcodeTable_rows_disjoint,
    fun _ => decode_eq_ok_iff.trans exists_row_matches_iff.symm,
    exists_decode_eq_error_iff.trans not_wordLegal_iff⟩

/-- Settles O1: ten are the words of the commands, and the other four are not legal. -/
theorem tenWordsDecodeToTheirCommands : Obligations.TenWordsDecodeToTheirCommands :=
  ⟨decode_encode .bwtf, decode_encode .bwti, decode_encode .mtfe, decode_encode .mtfd,
    decode_encode .hufe, decode_encode .hufd, decode_encode .comp, decode_encode .decomp,
    decode_encode .hcomp, decode_encode .hdecomp,
    decode_of_not_wordLegal (w := 0x00000000) rfl, decode_of_not_wordLegal (w := 0x0000000B) rfl,
    decode_of_not_wordLegal (w := 0x00000101) rfl, decode_of_not_wordLegal (w := 0x80000003) rfl⟩

end Sys2Proof.Machine
end

section
/-! SUPPORT. The rank of a position among the first `m` by an injective key: how the suffix array and the LF-mapping are
both described (40_bwt.md R113, R121). -/

namespace Sys2Proof.Machine

open Sys2Proof

section
variable {β : Type} [LinearOrder β]

/-- The number of positions below `m` whose key is less than the key of `i`. -/
def rankBy (f : Nat → β) (m i : Nat) : Nat := ((Finset.range m).filter fun j => f j < f i).card

/-- The rank counts over any arrangement of the positions. -/
theorem rankBy_eq_countP (f : Nat → β) {m : Nat} {l : List Nat} (hl : l.Perm (List.range m)) (i : Nat) :
    rankBy f m i = l.countP fun j => f j < f i := by
  rw [hl.countP_eq, List.countP_eq_length_filter]
  rfl

theorem rankBy_lt_rankBy_iff {f : Nat → β} {m i j : Nat} (hi : i < m) : rankBy f m i < rankBy f m j ↔ f i < f j := by
  constructor
  · intro h
    by_contra hji
    have hsub : ∀ k ∈ Finset.range m, f k < f j → f k < f i := fun k _ hk => hk.trans_le (not_lt.1 hji)
    exact h.not_ge (Finset.card_le_card (Finset.monotone_filter_right _ hsub))
  · intro h
    refine Finset.card_lt_card ⟨Finset.monotone_filter_right _ fun k _ hk => hk.trans h, fun hsub => ?_⟩
    have hmem := hsub (Finset.mem_filter.2 ⟨Finset.mem_range.2 hi, h⟩)
    exact lt_irrefl _ (Finset.mem_filter.1 hmem).2

theorem rankBy_lt (f : Nat → β) {m i : Nat} (hi : i < m) : rankBy f m i < m := by
  have hssub : ((Finset.range m).filter fun j => f j < f i) ⊂ Finset.range m :=
    Finset.filter_ssubset.2 ⟨i, Finset.mem_range.2 hi, lt_irrefl _⟩
  simpa [rankBy] using Finset.card_lt_card hssub

/-- Renaming the positions: a rearrangement `σ` of them under which two keys order alike gives like ranks. -/
theorem rankBy_comp_perm {γ : Type} [LinearOrder γ] {f : Nat → β} {g : Nat → γ} {σ : Nat → Nat} {m i : Nat}
    (hσ : ((List.range m).map σ).Perm (List.range m))
    (horder : ∀ j, j < m → (f j < f i ↔ g (σ j) < g (σ i))) : rankBy f m i = rankBy g m (σ i) := by
  rw [rankBy_eq_countP f (List.Perm.refl _), rankBy_eq_countP g hσ, List.countP_map]
  exact List.countP_congr fun j hj => by simpa using horder j (List.mem_range.1 hj)

/-- In a sequence whose keys rise, an element stands at its rank. -/
theorem idxOf_eq_countP_of_pairwise_lt {f : Nat → β} {a : Nat} {l : List Nat} (hl : l.Pairwise fun i j => f i < f j)
    (ha : a ∈ l) : l.idxOf a = l.countP fun j => f j < f a := by
  induction l with
  | nil => cases ha
  | cons b l ih =>
    obtain ⟨hb, hl⟩ := List.pairwise_cons.1 hl
    by_cases hba : b = a
    · subst hba
      have hnone : l.countP (fun j => decide (f j < f b)) = 0 :=
        List.countP_eq_zero.2 fun j hj => by simpa using (hb j hj).le
      simp [hnone]
    · have hal : a ∈ l := (List.mem_cons.1 ha).resolve_left (Ne.symm hba)
      simp [List.idxOf_cons_ne _ hba, ih hl hal, hb a hal]

end

/-- A map of the positions below `m` into themselves that takes no value twice is a rearrangement of them. -/
theorem map_range_perm_range {m : Nat} {σ : Nat → Nat} (hlt : ∀ i, i < m → σ i < m)
    (hinj : ∀ i, i < m → ∀ j, j < m → σ i = σ j → i = j) : ((List.range m).map σ).Perm (List.range m) := by
  have hnodup : ((List.range m).map σ).Nodup :=
    List.nodup_range.map_on fun i hi j hj => hinj i (List.mem_range.1 hi) j (List.mem_range.1 hj)
  refine (List.subperm_of_subset hnodup fun k hk => ?_).perm_of_length_le (by simp)
  obtain ⟨i, hi, rfl⟩ := List.mem_map.1 hk
  exact List.mem_range.2 (hlt i (List.mem_range.1 hi))

/-- The first `i` elements of a list, read one by one. -/
theorem take_eq_map_range {α : Type} {l : List α} {i : Nat} (hi : i ≤ l.length) (d : α) :
    l.take i = (List.range i).map fun j => l.getD j d := by
  refine List.ext_getElem (by simpa using hi) fun j hj _ => ?_
  have hjl : j < l.length := by simp at hj; omega
  simp [List.getElem?_eq_getElem hjl]

theorem eq_map_range {α : Type} (l : List α) (d : α) : l = (List.range l.length).map fun j => l.getD j d := by
  rw [← take_eq_map_range le_rfl, List.take_length]

end Sys2Proof.Machine
end

section
/-! SUPPORT. The order of symbol sequences is the lexicographic order of their ordinals, and the suffixes of a
sentinel-appended buffer in that order (40_bwt.md R110 to R112). -/

namespace Sys2Proof.Machine

open Sys2Proof

/-! ### Sequences of symbols -/

/-- The ordinals of a symbol sequence (40_bwt.md R110). -/
abbrev symOrds (u : List Sym) : List Nat := u.map Sym.ord

theorem Sym.ord_injective : Function.Injective Sym.ord := by
  rintro (_ | b) (_ | c) h
  · rfl
  · simp [Sym.ord] at h
  · simp [Sym.ord] at h
  · exact congrArg Sym.byte (BitVec.eq_of_toNat_eq (Nat.succ.inj h))

theorem symsLe_iff_not_lt {u v : List Sym} : symsLe u v = true ↔ ¬ symOrds v < symOrds u := by
  induction u generalizing v with
  | nil => simp [symsLe]
  | cons a u ih =>
    cases v with
    | nil => simp [symsLe]
    | cons b v =>
      rw [symsLe, symOrds, symOrds, List.map_cons, List.map_cons, List.cons_lt_cons_iff]
      rcases lt_trichotomy a.ord b.ord with h | h | h
      · simp [h, h.not_gt, h.ne']
      · simp [h, ih]
      · simp [h, h.not_gt]

theorem symsLe_iff {u v : List Sym} : symsLe u v = true ↔ symOrds u ≤ symOrds v := symsLe_iff_not_lt.trans not_lt

/-- At the first position where two sequences differ, the first has the smaller ordinal (40_bwt.md R112). -/
def FirstDiffLess (u v : List Sym) : Prop :=
  ∃ (k : Nat) (p q : Sym), (∀ j, j < k → u[j]? = v[j]?) ∧ u[k]? = some p ∧ v[k]? = some q ∧ p.ord < q.ord

theorem suffixLess_iff_firstDiffLess {s : List Sym} {a b : Nat} :
    SuffixLess s a b ↔ FirstDiffLess (suffixAt s a) (suffixAt s b) := by
  simp only [SuffixLess, FirstDiffLess, suffixAt, List.getElem?_drop]

theorem FirstDiffLess.cons {u v : List Sym} (h : FirstDiffLess u v) (a : Sym) : FirstDiffLess (a :: u) (a :: v) := by
  obtain ⟨k, p, q, hsame, hp, hq, hpq⟩ := h
  refine ⟨k + 1, p, q, fun j hj => ?_, hp, hq, hpq⟩
  cases j with
  | zero => rfl
  | succ j => exact hsame j (by omega)

/-- What follows in the two sequences does not matter once they differ (40_bwt.md R114). -/
theorem FirstDiffLess.append {u v : List Sym} (h : FirstDiffLess u v) (w z : List Sym) :
    FirstDiffLess (u ++ w) (v ++ z) := by
  obtain ⟨k, p, q, hsame, hp, hq, hpq⟩ := h
  have hu : k < u.length := (List.getElem?_eq_some_iff.1 hp).1
  have hv : k < v.length := (List.getElem?_eq_some_iff.1 hq).1
  refine ⟨k, p, q, fun j hj => ?_, ?_, ?_, hpq⟩
  · rw [List.getElem?_append_left (by omega), List.getElem?_append_left (by omega), hsame j hj]
  · rw [List.getElem?_append_left hu, hp]
  · rw [List.getElem?_append_left hv, hq]

theorem FirstDiffLess.symOrds_lt {u v : List Sym} (h : FirstDiffLess u v) : symOrds u < symOrds v := by
  obtain ⟨k, p, q, hsame, hp, hq, hpq⟩ := h
  obtain ⟨hu, rfl⟩ := List.getElem?_eq_some_iff.1 hp
  obtain ⟨hv, rfl⟩ := List.getElem?_eq_some_iff.1 hq
  refine List.lt_iff_exists.2 (Or.inr ⟨k, by simpa using hu, by simpa using hv, fun j hj => ?_, by simpa using hpq⟩)
  have hj' := hsame j hj
  rw [List.getElem?_eq_getElem (by omega), List.getElem?_eq_getElem (by omega), Option.some_inj] at hj'
  simp [hj']

/-! ### Sentinel-appended buffers -/

theorem sentinelAppended_cons (b : Byte) (x : List Byte) : sentinelAppended (b :: x) = .byte b :: sentinelAppended x := rfl

/-- Two sentinel-appended buffers in lexicographic order differ at a position inside both: neither goes on where the
other has its sentinel (40_bwt.md R112). -/
theorem firstDiffLess_sentinelAppended {x y : List Byte}
    (h : symOrds (sentinelAppended x) < symOrds (sentinelAppended y)) :
    FirstDiffLess (sentinelAppended x) (sentinelAppended y) := by
  induction x generalizing y with
  | nil =>
    cases y with
    | nil => exact absurd h (lt_irrefl _)
    | cons c y => exact ⟨0, .sent, .byte c, by simp, rfl, rfl, Nat.succ_pos _⟩
  | cons b x ih =>
    cases y with
    | nil =>
      rcases List.cons_lt_cons_iff.1 h with hlt | ⟨heq, -⟩
      · exact absurd hlt (Nat.not_lt_zero _)
      · cases heq
    | cons c y =>
      rcases List.cons_lt_cons_iff.1 h with hlt | ⟨heq, hrest⟩
      · exact ⟨0, .byte b, .byte c, by simp, rfl, rfl, hlt⟩
      · rw [sentinelAppended_cons, sentinelAppended_cons, Sym.ord_injective heq]
        exact (ih hrest).cons _

theorem suffixAt_sentinelAppended {x : List Byte} {a : Nat} (ha : a ≤ x.length) :
    suffixAt (sentinelAppended x) a = sentinelAppended (x.drop a) := by
  rw [suffixAt, sentinelAppended, List.drop_append_of_le_length (by simpa using ha), ← List.map_drop, sentinelAppended]

/-! ### The key of an offset -/

/-- The ordinals of the suffix at an offset. -/
def suffixKey (x : List Byte) (a : Nat) : List Nat := symOrds (suffixAt (sentinelAppended x) a)

theorem suffixKey_length (x : List Byte) (a : Nat) : (suffixKey x a).length = x.length + 1 - a := by
  simp [suffixKey, suffixAt, sentinelAppended]

/-- Suffixes at different offsets have different lengths (40_bwt.md R112). -/
theorem suffixKey_injOn {x : List Byte} {a b : Nat} (ha : a ≤ x.length) (hb : b ≤ x.length)
    (h : suffixKey x a = suffixKey x b) : a = b := by
  have hlen := congrArg List.length h
  rw [suffixKey_length, suffixKey_length] at hlen
  omega

theorem suffixKey_last (x : List Byte) : suffixKey x x.length = [0] := by
  rw [suffixKey, suffixAt_sentinelAppended le_rfl, List.drop_length]
  rfl

theorem suffixKey_of_lt {x : List Byte} {a : Nat} (ha : a < x.length) :
    suffixKey x a = ((x.getD a 0).toNat + 1) :: suffixKey x (a + 1) := by
  rw [suffixKey, suffixKey, suffixAt_sentinelAppended ha.le, suffixAt_sentinelAppended ha, List.drop_eq_getElem_cons ha,
    List.getD_eq_getElem x 0 ha]
  rfl

theorem suffixLess_iff {x : List Byte} {a b : Nat} (ha : a ≤ x.length) (hb : b ≤ x.length) :
    SuffixLess (sentinelAppended x) a b ↔ suffixKey x a < suffixKey x b := by
  rw [suffixLess_iff_firstDiffLess]
  refine ⟨FirstDiffLess.symOrds_lt, fun h => ?_⟩
  rw [suffixKey, suffixKey] at h
  rw [suffixAt_sentinelAppended ha, suffixAt_sentinelAppended hb] at h ⊢
  exact firstDiffLess_sentinelAppended h

/-- A rotation begins with its suffix, so lesser suffixes make lesser rotations (40_bwt.md R114). -/
theorem rotation_lt_of_suffixKey_lt {x : List Byte} {a b : Nat} (ha : a ≤ x.length) (hb : b ≤ x.length)
    (h : suffixKey x a < suffixKey x b) :
    symOrds (rotationAt (sentinelAppended x) a) < symOrds (rotationAt (sentinelAppended x) b) :=
  ((suffixLess_iff_firstDiffLess.1 ((suffixLess_iff ha hb).2 h)).append _ _).symOrds_lt

end Sys2Proof.Machine
end

section
/-! SUPPORT. The suffix array: the one arrangement of the offsets whose suffixes rise (40_bwt.md R113). -/

namespace Sys2Proof.Machine

open Sys2Proof

theorem insertOffset_eq_orderedInsert (x : List Byte) (o : Nat) (l : List Nat) :
    insertOffset (sentinelAppended x) o l = l.orderedInsert (fun a b => suffixKey x a ≤ suffixKey x b) o := by
  induction l with
  | nil => rfl
  | cons p l ih =>
    rw [insertOffset, List.orderedInsert_cons, ih]
    exact if_congr symsLe_iff rfl rfl

theorem suffixArray_eq_insertionSort (x : List Byte) :
    suffixArray x = (List.range (x.length + 1)).insertionSort fun a b => suffixKey x a ≤ suffixKey x b := by
  rw [suffixArray]
  induction List.range (x.length + 1) with
  | nil => rfl
  | cons o l ih => rw [sortOffsets, ih, insertOffset_eq_orderedInsert, List.insertionSort_cons]

theorem suffixArray_perm (x : List Byte) : (suffixArray x).Perm (List.range (x.length + 1)) := by
  rw [suffixArray_eq_insertionSort]
  exact List.perm_insertionSort _ _

@[simp] theorem suffixArray_length (x : List Byte) : (suffixArray x).length = x.length + 1 := by
  simp [(suffixArray_perm x).length_eq]

@[simp] theorem mem_suffixArray {x : List Byte} {a : Nat} : a ∈ suffixArray x ↔ a ≤ x.length := by
  rw [(suffixArray_perm x).mem_iff, List.mem_range, Nat.lt_succ_iff]

theorem suffixArray_nodup (x : List Byte) : (suffixArray x).Nodup := (suffixArray_perm x).nodup_iff.2 List.nodup_range

theorem suffixArray_pairwise (x : List Byte) : (suffixArray x).Pairwise fun a b => suffixKey x a < suffixKey x b := by
  have hsorted : (suffixArray x).Pairwise fun a b => suffixKey x a ≤ suffixKey x b := by
    rw [suffixArray_eq_insertionSort]
    exact List.pairwise_insertionSort _ _
  refine (hsorted.and (suffixArray_nodup x)).imp_of_mem fun ha hb hab => ?_
  exact hab.1.lt_of_ne fun h => hab.2 (suffixKey_injOn (mem_suffixArray.1 ha) (mem_suffixArray.1 hb) h)

theorem eq_suffixArray {x : List Byte} {q : List Nat} (hq : q.Perm (List.range (x.length + 1)))
    (hrise : q.Pairwise fun a b => suffixKey x a < suffixKey x b) : q = suffixArray x :=
  (hq.trans (suffixArray_perm x).symm).eq_of_pairwise (fun _ _ _ _ h h' => absurd h' h.asymm) hrise
    (suffixArray_pairwise x)

/-- Each suffix less than the next, for a list of offsets: the suffixes rise (40_bwt.md R113). -/
theorem pairwise_suffixKey_iff {x : List Byte} {q : List Nat} (hq : q.Perm (List.range (x.length + 1))) :
    (q.Pairwise fun a b => suffixKey x a < suffixKey x b) ↔
      ∀ i, i < x.length → SuffixLess (sentinelAppended x) (q.getD i 0) (q.getD (i + 1) 0) := by
  have hlen : q.length = x.length + 1 := by simp [hq.length_eq]
  have hle : ∀ i (hi : i < q.length), q[i] ≤ x.length := fun i hi =>
    Nat.lt_succ_iff.1 (List.mem_range.1 (hq.mem_iff.1 (List.getElem_mem hi)))
  have hstep : ∀ i (hi : i + 1 < q.length),
      SuffixLess (sentinelAppended x) (q.getD i 0) (q.getD (i + 1) 0) ↔ suffixKey x q[i] < suffixKey x q[i + 1] := by
    intro i hi
    rw [List.getD_eq_getElem q 0 hi, List.getD_eq_getElem q 0 (by omega), suffixLess_iff (hle _ _) (hle _ _)]
  constructor
  · intro h i hi
    exact (hstep i (by omega)).2 (List.pairwise_iff_getElem.1 h i (i + 1) _ _ (by omega))
  · intro h
    have : IsTrans Nat fun a b => suffixKey x a < suffixKey x b := ⟨fun _ _ _ => lt_trans⟩
    exact (List.isChain_iff_getElem.2 fun i hi => (hstep i hi).1 (h i (by omega))).pairwise

/-- The suffix that is the sentinel alone is the least (40_bwt.md R113). -/
theorem suffixKey_last_le {x : List Byte} {a : Nat} (ha : a ≤ x.length) : suffixKey x x.length ≤ suffixKey x a := by
  rcases ha.eq_or_lt with rfl | ha
  · exact le_rfl
  · rw [suffixKey_last, suffixKey_of_lt ha]
    exact (List.cons_lt_cons_iff.2 (Or.inl (Nat.succ_pos _))).le

theorem suffixArray_head? (x : List Byte) : (suffixArray x).head? = some x.length := by
  have hrise := suffixArray_pairwise x
  have hlast : x.length ∈ suffixArray x := mem_suffixArray.2 le_rfl
  have hle : ∀ a ∈ suffixArray x, suffixKey x x.length ≤ suffixKey x a := fun a ha =>
    suffixKey_last_le (mem_suffixArray.1 ha)
  cases hsa : suffixArray x with
  | nil => simp [hsa] at hlast
  | cons a l =>
    rw [hsa] at hrise hlast hle
    rcases List.mem_cons.1 hlast with h | h
    · rw [h, List.head?_cons]
    · exact absurd (List.rel_of_pairwise_cons hrise h) (hle a (by simp)).not_gt

/-- An offset stands in the suffix array at the rank of its suffix. -/
theorem idxOf_suffixArray {x : List Byte} {a : Nat} (ha : a ≤ x.length) :
    (suffixArray x).idxOf a = rankBy (suffixKey x) (x.length + 1) a := by
  rw [rankBy_eq_countP _ (suffixArray_perm x),
    idxOf_eq_countP_of_pairwise_lt (suffixArray_pairwise x) (mem_suffixArray.2 ha)]

theorem idxOf_suffixArray_lt {x : List Byte} {a : Nat} (ha : a ≤ x.length) : (suffixArray x).idxOf a < x.length + 1 := by
  simpa using List.idxOf_lt_length_iff.2 (mem_suffixArray.2 ha)

end Sys2Proof.Machine
end

section
/-! SUPPORT. The forward transform, row by row: the row of an offset holds the symbol before it, and the suffix at the
offset before is that symbol followed by the suffix (40_bwt.md R116, R117). -/

namespace Sys2Proof.Machine

open Sys2Proof

/-! ### The offset and the symbol cyclically before an offset -/

/-- The offset cyclically before one of the sentinel-appended buffer (40_bwt.md R116). -/
def offsetBefore (x : List Byte) : Nat → Nat
  | 0 => x.length
  | a + 1 => a

/-- The ordinal of the symbol cyclically before an offset: the sentinel's before offset 0 (40_bwt.md R116, R117). -/
def ordBefore (x : List Byte) : Nat → Nat
  | 0 => Sym.sent.ord
  | a + 1 => (Sym.byte (x.getD a 0)).ord

theorem offsetBefore_le {x : List Byte} {a : Nat} (ha : a ≤ x.length) : offsetBefore x a ≤ x.length := by
  cases a with
  | zero => exact le_rfl
  | succ a => exact (Nat.le_succ a).trans ha

theorem map_offsetBefore_perm (x : List Byte) :
    ((List.range (x.length + 1)).map (offsetBefore x)).Perm (List.range (x.length + 1)) := by
  have hmap : (List.range (x.length + 1)).map (offsetBefore x) = x.length :: List.range x.length := by
    rw [List.range_succ_eq_map, List.map_cons, List.map_map]
    exact congrArg _ (List.map_id _)
  rw [hmap, List.range_succ]
  exact (List.perm_append_singleton _ _).symm

/-- Two suffixes stand in the order of their first symbols and then of the suffixes after them; the sentinel, with
nothing after it, occurs once (40_bwt.md R112). -/
theorem suffixKey_offsetBefore_lt_iff {x : List Byte} {a b : Nat} (ha : a ≤ x.length) (hb : b ≤ x.length) :
    suffixKey x (offsetBefore x a) < suffixKey x (offsetBefore x b) ↔
      ordBefore x a < ordBefore x b ∨ ordBefore x a = ordBefore x b ∧ suffixKey x a < suffixKey x b := by
  cases a with
  | zero =>
    cases b with
    | zero => simp
    | succ b =>
      rw [offsetBefore, offsetBefore, suffixKey_last, suffixKey_of_lt hb, List.cons_lt_cons_iff]
      simp [ordBefore, Sym.ord]
  | succ a =>
    cases b with
    | zero =>
      rw [offsetBefore, offsetBefore, suffixKey_last, suffixKey_of_lt ha, List.cons_lt_cons_iff]
      simp [ordBefore, Sym.ord]
    | succ b =>
      rw [offsetBefore, offsetBefore, suffixKey_of_lt ha, suffixKey_of_lt hb, List.cons_lt_cons_iff]
      rfl

/-! ### The rows of the forward transform -/

@[simp] theorem bwtFwd_length (x : List Byte) : (bwtFwd x).1.length = x.length + 1 := by simp [bwtFwd]

theorem exists_idxOf_suffixArray {x : List Byte} {j : Nat} (hj : j < x.length + 1) :
    ∃ a, a ≤ x.length ∧ (suffixArray x).idxOf a = j := by
  have hj' : j < (suffixArray x).length := by simpa using hj
  exact ⟨(suffixArray x)[j], mem_suffixArray.1 (List.getElem_mem hj'), (suffixArray_nodup x).idxOf_getElem j hj'⟩

theorem getElem?_suffixArray_idxOf {x : List Byte} {a : Nat} (ha : a ≤ x.length) :
    (suffixArray x)[(suffixArray x).idxOf a]? = some a :=
  List.getElem?_idxOf (mem_suffixArray.2 ha)

theorem idxOf_suffixArray_lt_iff {x : List Byte} {a b : Nat} (ha : a ≤ x.length) (hb : b ≤ x.length) :
    (suffixArray x).idxOf a < (suffixArray x).idxOf b ↔ suffixKey x a < suffixKey x b := by
  rw [idxOf_suffixArray ha, idxOf_suffixArray hb, rankBy_lt_rankBy_iff (Nat.lt_succ_iff.2 ha)]

/-- The sentinel index is the row of offset 0 and of no other (40_bwt.md R116). -/
theorem idxOf_suffixArray_eq_index_iff {x : List Byte} {a : Nat} (ha : a ≤ x.length) :
    (suffixArray x).idxOf a = (bwtFwd x).2 ↔ a = 0 :=
  List.idxOf_inj (mem_suffixArray.2 ha)

theorem bwtFwd_getElem? {x : List Byte} {a : Nat} (ha : a ≤ x.length) :
    (bwtFwd x).1[(suffixArray x).idxOf a]? = some (bwtByteBefore x a) := by
  rw [bwtFwd, List.getElem?_map, getElem?_suffixArray_idxOf ha, Option.map_some]

theorem ordAt_bwtFwd {x : List Byte} {a : Nat} (ha : a ≤ x.length) :
    ordAt (bwtFwd x).1 (bwtFwd x).2 ((suffixArray x).idxOf a) = ordBefore x a := by
  rw [ordAt, if_congr (idxOf_suffixArray_eq_index_iff ha) rfl rfl, List.getD_eq_getElem?_getD, bwtFwd_getElem? ha]
  cases a <;> rfl

theorem walkByte_bwtFwd {x : List Byte} {a : Nat} (ha : a ≤ x.length) :
    walkByte (bwtFwd x).1 (bwtFwd x).2 ((suffixArray x).idxOf a) = bwtByteBefore x a := by
  rw [walkByte, if_congr (idxOf_suffixArray_eq_index_iff ha) rfl rfl, List.getD_eq_getElem?_getD, bwtFwd_getElem? ha]
  cases a <;> rfl

/-- The bytes before the offsets 1 to n are the input (40_bwt.md R116). -/
theorem map_bwtByteBefore_erase_zero (x : List Byte) :
    ((List.range (x.length + 1)).erase 0).map (bwtByteBefore x) = x := by
  rw [List.range_succ_eq_map, List.erase_cons_head, List.map_map]
  exact (eq_map_range x 0).symm

/-- The output without the sentinel's row is a rearrangement of the input (40_bwt.md R126 (b)). -/
theorem bwtFwd_eraseIdx_perm (x : List Byte) : ((bwtFwd x).1.eraseIdx (bwtFwd x).2).Perm x := by
  have hperm := ((suffixArray_perm x).erase 0).map (bwtByteBefore x)
  rw [map_bwtByteBefore_erase_zero] at hperm
  rwa [bwtFwd, List.eraseIdx_map, List.eraseIdx_idxOf_eq_erase]

theorem bwtFwd_index_le (x : List Byte) : (bwtFwd x).2 ≤ x.length :=
  Nat.lt_succ_iff.1 (idxOf_suffixArray_lt (Nat.zero_le _))

/-- Row 0 is the row of offset n (40_bwt.md R113). -/
theorem idxOf_suffixArray_length (x : List Byte) : (suffixArray x).idxOf x.length = 0 := by
  obtain ⟨l, hl⟩ := List.head?_eq_some_iff.1 (suffixArray_head? x)
  rw [hl, List.idxOf_cons_self]

end Sys2Proof.Machine
end

section
/-! SUPPORT. The LF-mapping is a rank: that of a position by its ordinal and then by its place (40_bwt.md R120, R121). -/

namespace Sys2Proof.Machine

open Sys2Proof

/-- What a stable sort of the positions by ordinal compares (40_bwt.md R121). -/
def stableKey (o : List Nat) (i : Nat) : Nat ×ₗ Nat := toLex (o.getD i 0, i)

theorem stableKey_lt_iff {o : List Nat} {i j : Nat} :
    stableKey o i < stableKey o j ↔ o.getD i 0 < o.getD j 0 ∨ o.getD i 0 = o.getD j 0 ∧ i < j :=
  Prod.Lex.toLex_lt_toLex

theorem stableKey_injective (o : List Nat) : Function.Injective (stableKey o) := fun _ _ h =>
  congrArg (fun p => (ofLex p).2) h

theorem countBelow_eq_card (o : List Nat) (v : Nat) :
    countBelow o v = ((Finset.range o.length).filter fun j => o.getD j 0 < v).card := by
  rw [countBelow]
  conv_lhs => rw [eq_map_range o 0]
  rw [List.countP_map, List.countP_eq_length_filter]
  rfl

theorem rankAt_eq_card {o : List Nat} {i : Nat} (hi : i < o.length) :
    rankAt o i = ((Finset.range o.length).filter fun j => o.getD j 0 = o.getD i 0 ∧ j < i).card := by
  have hcard : rankAt o i = ((Finset.range i).filter fun j => o.getD j 0 = o.getD i 0).card := by
    rw [rankAt, take_eq_map_range hi.le 0, List.count_eq_countP, List.countP_map, List.countP_eq_length_filter]
    rfl
  rw [hcard]
  congr 1
  ext j
  simp only [Finset.mem_filter, Finset.mem_range]
  omega

theorem lfMap_eq_rankBy {o : List Nat} {i : Nat} (hi : i < o.length) :
    lfMap o i = rankBy (stableKey o) o.length i := by
  have hdisjoint : Disjoint ((Finset.range o.length).filter fun j => o.getD j 0 < o.getD i 0)
      ((Finset.range o.length).filter fun j => o.getD j 0 = o.getD i 0 ∧ j < i) :=
    Finset.disjoint_filter.2 fun j _ hlt heq => hlt.ne heq.1
  rw [lfMap, countBelow_eq_card, rankAt_eq_card hi, ← Finset.card_union_of_disjoint hdisjoint, ← Finset.filter_or]
  simp only [rankBy, stableKey_lt_iff]

theorem lfMap_lt {o : List Nat} {i : Nat} (hi : i < o.length) : lfMap o i < o.length := by
  rw [lfMap_eq_rankBy hi]
  exact rankBy_lt _ hi

theorem lfMap_lt_lfMap_iff {o : List Nat} {i j : Nat} (hi : i < o.length) (hj : j < o.length) :
    lfMap o i < lfMap o j ↔ o.getD i 0 < o.getD j 0 ∨ o.getD i 0 = o.getD j 0 ∧ i < j := by
  rw [lfMap_eq_rankBy hi, lfMap_eq_rankBy hj, rankBy_lt_rankBy_iff hi, stableKey_lt_iff]

theorem lfMap_injOn {o : List Nat} {i j : Nat} (hi : i < o.length) (hj : j < o.length) (h : lfMap o i = lfMap o j) :
    i = j := by
  rw [lfMap_eq_rankBy hi, lfMap_eq_rankBy hj] at h
  refine stableKey_injective o (le_antisymm (not_lt.1 fun hlt => ?_) (not_lt.1 fun hlt => ?_))
  · exact h.not_gt ((rankBy_lt_rankBy_iff hj).2 hlt)
  · exact h.not_lt ((rankBy_lt_rankBy_iff hi).2 hlt)

/-! ### The ordinals of a transformed buffer -/

@[simp] theorem ordinals_length (t : List Byte) (ix : Nat) : (ordinals t ix).length = t.length := by simp [ordinals]

theorem ordinals_getD {t : List Byte} {ix i : Nat} (hi : i < t.length) : (ordinals t ix).getD i 0 = ordAt t ix i := by
  rw [List.getD_eq_getElem _ 0 (by simpa using hi)]
  simp [ordinals]

theorem ordAt_eq_zero_iff {t : List Byte} {ix i : Nat} : ordAt t ix i = 0 ↔ i = ix := by simp [ordAt]

theorem lfMap_ordinals_lt_iff {t : List Byte} {ix i j : Nat} (hi : i < t.length) (hj : j < t.length) :
    lfMap (ordinals t ix) i < lfMap (ordinals t ix) j ↔
      ordAt t ix i < ordAt t ix j ∨ ordAt t ix i = ordAt t ix j ∧ i < j := by
  rw [lfMap_lt_lfMap_iff (by simpa using hi) (by simpa using hj), ordinals_getD hi, ordinals_getD hj]

theorem lfMap_ordinals_lt {t : List Byte} {ix i : Nat} (hi : i < t.length) : lfMap (ordinals t ix) i < t.length := by
  simpa using lfMap_lt (o := ordinals t ix) (by simpa using hi)

theorem map_lfMap_perm (t : List Byte) (ix : Nat) :
    ((List.range t.length).map (lfMap (ordinals t ix))).Perm (List.range t.length) :=
  map_range_perm_range (fun _ hi => lfMap_ordinals_lt hi)
    fun _ hi _ hj => lfMap_injOn (by simpa using hi) (by simpa using hj)

/-- Only the sentinel's position has ordinal 0, and no ordinal is below it (40_bwt.md R121). -/
theorem lfMap_ordinals_index {t : List Byte} {ix : Nat} (hix : ix < t.length) : lfMap (ordinals t ix) ix = 0 := by
  rw [lfMap_eq_rankBy (by simpa using hix), rankBy, Finset.card_eq_zero, Finset.filter_eq_empty_iff]
  intro j hj
  have hj' : j < t.length := by simpa using hj
  have hzero : ordAt t ix ix = 0 := ordAt_eq_zero_iff.2 rfl
  rw [stableKey_lt_iff, ordinals_getD hj', ordinals_getD hix, hzero, ordAt_eq_zero_iff]
  omega

/-! ### The LF-mapping of a forward transform -/

/-- The offset before that of a row (40_bwt.md R116). -/
def offsetBeforeRow (x : List Byte) (j : Nat) : Nat := offsetBefore x ((suffixArray x).getD j 0)

theorem offsetBeforeRow_idxOf {x : List Byte} {a : Nat} (ha : a ≤ x.length) :
    offsetBeforeRow x ((suffixArray x).idxOf a) = offsetBefore x a := by
  rw [offsetBeforeRow, List.getD_eq_getElem?_getD, getElem?_suffixArray_idxOf ha, Option.getD_some]

theorem map_offsetBeforeRow_perm (x : List Byte) :
    ((List.range (x.length + 1)).map (offsetBeforeRow x)).Perm (List.range (x.length + 1)) := by
  have hrows := eq_map_range (suffixArray x) 0
  rw [suffixArray_length] at hrows
  have hmap : (List.range (x.length + 1)).map (offsetBeforeRow x) = (suffixArray x).map (offsetBefore x) := by
    conv_rhs => rw [hrows, List.map_map]
    rfl
  rw [hmap]
  exact ((suffixArray_perm x).map _).trans (map_offsetBefore_perm x)

/-- The symbols before the offsets, with ties in the order of the rows, stand in the order of the suffixes they begin
(40_bwt.md R121, R123). -/
theorem stableKey_bwtFwd_lt_iff {x : List Byte} {a b : Nat} (ha : a ≤ x.length) (hb : b ≤ x.length) :
    stableKey (ordinals (bwtFwd x).1 (bwtFwd x).2) ((suffixArray x).idxOf a) <
        stableKey (ordinals (bwtFwd x).1 (bwtFwd x).2) ((suffixArray x).idxOf b) ↔
      suffixKey x (offsetBefore x a) < suffixKey x (offsetBefore x b) := by
  rw [stableKey_lt_iff, ordinals_getD (by simpa using idxOf_suffixArray_lt ha),
    ordinals_getD (by simpa using idxOf_suffixArray_lt hb), ordAt_bwtFwd ha, ordAt_bwtFwd hb,
    suffixKey_offsetBefore_lt_iff ha hb, idxOf_suffixArray_lt_iff ha hb]

/-- From the row of an offset the LF-mapping goes to the row of the offset before it (40_bwt.md R121, R123). -/
theorem lfMap_bwtFwd {x : List Byte} {a : Nat} (ha : a ≤ x.length) :
    lfMap (ordinals (bwtFwd x).1 (bwtFwd x).2) ((suffixArray x).idxOf a) = (suffixArray x).idxOf (offsetBefore x a) := by
  have hrank := rankBy_comp_perm (f := stableKey (ordinals (bwtFwd x).1 (bwtFwd x).2)) (g := suffixKey x)
    (i := (suffixArray x).idxOf a) (map_offsetBeforeRow_perm x) fun j hj => by
      obtain ⟨b, hb, rfl⟩ := exists_idxOf_suffixArray hj
      rw [stableKey_bwtFwd_lt_iff hb ha, offsetBeforeRow_idxOf hb, offsetBeforeRow_idxOf ha]
  rw [lfMap_eq_rankBy (by simpa using idxOf_suffixArray_lt ha), ordinals_length, bwtFwd_length, hrank,
    offsetBeforeRow_idxOf ha, idxOf_suffixArray (offsetBefore_le ha)]

end Sys2Proof.Machine
end

section
/-! SUPPORT. The walk of the inverse (40_bwt.md R122). -/

namespace Sys2Proof.Machine

open Sys2Proof

variable {t : List Byte} {ix : Nat} {o : List Nat}

/-- Each step puts one byte before those there (40_bwt.md R122). -/
theorem bwtWalk_fst (k idx : Nat) (out : List Byte) :
    ∃ front, (bwtWalk t ix o k idx out).1 = front ++ out ∧ front.length = k := by
  induction k generalizing idx out with
  | zero => exact ⟨[], rfl, rfl⟩
  | succ k ih =>
    obtain ⟨front, hfront, hlen⟩ := ih (lfMap o idx) (walkByte t ix idx :: out)
    exact ⟨front ++ [walkByte t ix idx], by simp [bwtWalk, hfront], by simp [hlen]⟩

/-- The walk stays among the rows (40_bwt.md R121, R125). -/
theorem bwtWalk_snd_lt {k idx : Nat} (hidx : idx < o.length) (out : List Byte) :
    (bwtWalk t ix o k idx out).2 < o.length := by
  induction k generalizing idx out with
  | zero => exact hidx
  | succ k ih => exact ih (lfMap_lt hidx) _

/-- The walk reads the buffer through `walkByte` alone. -/
theorem bwtWalk_congr {u : List Byte} (h : ∀ i, walkByte t ix i = walkByte u ix i) (k idx : Nat) (out : List Byte) :
    bwtWalk t ix o k idx out = bwtWalk u ix o k idx out := by
  induction k generalizing idx out with
  | zero => rfl
  | succ k ih => rw [bwtWalk, bwtWalk, h, ih]

theorem walkByte_index : walkByte t ix ix = sentinelByte := if_pos rfl

theorem walkByte_set (b : Byte) (i : Nat) : walkByte (t.set ix b) ix i = walkByte t ix i := by
  by_cases hi : i = ix
  · rw [hi, walkByte_index, walkByte_index]
  · simp [walkByte, hi, List.getElem?_set_ne (Ne.symm hi)]

theorem ordinals_set (b : Byte) : ordinals (t.set ix b) ix = ordinals t ix := by
  rw [ordinals, ordinals, List.length_set]
  refine List.map_congr_left fun i _ => ?_
  by_cases hi : i = ix
  · rw [ordAt_eq_zero_iff.2 hi, ordAt_eq_zero_iff.2 hi]
  · simp [ordAt, hi, List.getElem?_set_ne (Ne.symm hi)]

/-- The first step stores the sentinel's placeholder and goes to row 0 (40_bwt.md R122). -/
theorem bwtInv_eq_bwtWalk (hix : ix < t.length) :
    bwtInv t ix = bwtWalk t ix (ordinals t ix) (t.length - 1) 0 [sentinelByte] := by
  obtain ⟨m, hm⟩ : ∃ m, t.length = m + 1 := ⟨t.length - 1, by omega⟩
  rw [bwtInv, hm, bwtWalk, lfMap_ordinals_index hix, walkByte_index, Nat.add_sub_cancel]

theorem bwtInv_length (t : List Byte) (ix : Nat) : (bwtInv t ix).1.length = t.length := by
  obtain ⟨front, hfront, hlen⟩ := bwtWalk_fst (t := t) (ix := ix) (o := ordinals t ix) t.length ix []
  rw [bwtInv, hfront, List.append_nil, hlen]

theorem bwtInv_snd_lt (hix : ix < t.length) : (bwtInv t ix).2 < t.length := by
  simpa [bwtInv] using bwtWalk_snd_lt (t := t) (ix := ix) (o := ordinals t ix) (k := t.length) (by simpa using hix) []

/-- On a forward transform the walk from the row of an offset stores the bytes before it and ends on the row of offset 0
(40_bwt.md R123). -/
theorem bwtWalk_bwtFwd {x : List Byte} {a : Nat} (ha : a ≤ x.length) (out : List Byte) :
    bwtWalk (bwtFwd x).1 (bwtFwd x).2 (ordinals (bwtFwd x).1 (bwtFwd x).2) a ((suffixArray x).idxOf a) out =
      (x.take a ++ out, (bwtFwd x).2) := by
  induction a generalizing out with
  | zero => rfl
  | succ a ih =>
    rw [bwtWalk, lfMap_bwtFwd ha, walkByte_bwtFwd ha, offsetBefore, ih (by omega), bwtByteBefore, if_neg (by omega),
      Nat.add_sub_cancel, List.getD_eq_getElem x 0 ha, List.take_succ_eq_append_getElem ha, List.append_assoc,
      List.singleton_append]

end Sys2Proof.Machine
end

section
/-! SUPPORT. A command completes when its body gives a result that fits (10_state.md R32, 30_encoding.md R99). -/

namespace Sys2Proof.Machine

open Sys2Proof

variable {i : Instr} {s : State} {out : List Byte} {raux : Nat}

theorem exec_eq_commit (hreg : RegionsOk s)
    (hbody : bodyOf i s.cfg (sourceBytes s) s.latched.len.toNat s.latched.cap.toNat s.latched.aux.toNat = .ok (out, raux))
    (hlen : out.length ≤ s.latched.cap.toNat) : exec i s = .next (commit out raux s) := by
  have hexec : execBody (bodyOf i) s = .ok (out, raux) := by
    rw [execBody, (checkRegions_ok_iff s).2 hreg]
    simp only [hbody, if_neg hlen.not_gt]
  rw [exec_eq_complete, complete, hexec]

theorem completesWith_of_body (hreg : RegionsOk s)
    (hbody : bodyOf i s.cfg (sourceBytes s) s.latched.len.toNat s.latched.cap.toNat s.latched.aux.toNat = .ok (out, raux))
    (hlen : out.length ≤ s.latched.cap.toNat) (hraux : raux < 2 ^ 32) : CompletesWith i s out raux :=
  ⟨commit out raux s, exec_eq_commit hreg hbody hlen, rfl, rfl, commit_rlen_toNat hlen raux,
    by rw [commit_raux, BitVec.toNat_ofNat, Nat.mod_eq_of_lt hraux], fun _ hk => byteAt_commit_inside hk,
    fun _ ha => byteAt_commit_outside ha⟩

end Sys2Proof.Machine
end

section
/-! The statements about the Burrows–Wheeler transform (40_bwt.md), settled. -/

namespace Sys2Proof.Machine

open Sys2Proof

/-- Settles O41: the walk goes from row 0, which is the row of offset n, back through every offset. -/
theorem inverseTransformUndoesForward : Obligations.InverseTransformUndoesForward := by
  intro x
  have hix : (bwtFwd x).2 < (bwtFwd x).1.length := by
    rw [bwtFwd_length]
    exact Nat.lt_succ_iff.2 (bwtFwd_index_le x)
  have hwalk := bwtWalk_bwtFwd (le_refl x.length) [sentinelByte]
  rw [idxOf_suffixArray_length, List.take_length] at hwalk
  rw [bwtInv_eq_bwtWalk hix, bwtFwd_length, Nat.add_sub_cancel, hwalk]

/-- Settles O16: the body passes both its limits. -/
theorem bwtfCompletesWithTheTransform : Obligations.BwtfCompletesWithTheTransform := by
  intro s hreg hmax hcap
  have hlen : (bwtFwd (sourceBytes s)).1.length = s.latched.len.toNat + 1 := by simp
  have hindex := bwtFwd_index_le (sourceBytes s)
  rw [sourceBytes_length] at hindex
  have hlt := s.latched.len.isLt
  refine ⟨completesWith_of_body hreg ?_ (hlen.trans_le hcap) (by omega), hlen⟩
  simp only [bodyOf, bwtfBody, requireAtMost_ok hmax, requireAtMost_ok hcap]

/-- Settles O17: the body passes both its limits and the index is in range. -/
theorem bwtiCompletesWithTheWalk : Obligations.BwtiCompletesWithTheWalk := by
  intro s hreg hmax hcap haux
  have hlen : (bwtInv (sourceBytes s) s.latched.aux.toNat).1.length = s.latched.len.toNat := by
    rw [bwtInv_length, sourceBytes_length]
  have hrow := bwtInv_snd_lt (t := sourceBytes s) (by simpa using haux)
  rw [sourceBytes_length] at hrow
  have hlt := s.latched.len.isLt
  refine ⟨completesWith_of_body hreg ?_ (hlen.trans_le hcap) (by omega), hlen⟩
  have hindex : ¬ (s.latched.len.toNat = 0 ∨ s.latched.aux.toNat ≥ s.latched.len.toNat) := by omega
  simp only [bodyOf, bwtiBody, requireAtMost_ok hmax, requireAtMost_ok hcap, if_neg hindex]

/-- Settles O37: the sort arranges the offsets, and their suffixes differ. -/
theorem suffixArrayIsTheSortedOffsets : Obligations.SuffixArrayIsTheSortedOffsets := fun x =>
  ⟨suffixArray_perm x, (pairwise_suffixKey_iff (suffixArray_perm x)).1 (suffixArray_pairwise x),
    fun _ hq hrise => eq_suffixArray hq ((pairwise_suffixKey_iff hq).2 hrise), suffixArray_head? x⟩

/-- Settles O38: of two different suffixes one is less, and then so is its rotation. -/
theorem rotationOrderIsSuffixOrder : Obligations.RotationOrderIsSuffixOrder := by
  intro x a b ha hb
  rw [Bool.eq_iff_iff, symsLe_iff, symsLe_iff]
  change _ ↔ suffixKey x a ≤ suffixKey x b
  rcases lt_trichotomy (suffixKey x a) (suffixKey x b) with h | h | h
  · exact iff_of_true (rotation_lt_of_suffixKey_lt ha hb h).le h.le
  · rw [suffixKey_injOn ha hb h]
    exact iff_of_true le_rfl le_rfl
  · exact iff_of_false (rotation_lt_of_suffixKey_lt hb ha h).not_ge h.not_ge

/-- Settles O39: each fact is one about the row of an offset, of offset 0 or of offset n. -/
theorem forwardTransformFacts : Obligations.ForwardTransformFacts := by
  intro x
  refine ⟨bwtFwd_length x, bwtFwd_eraseIdx_perm x, bwtFwd_getElem? (Nat.zero_le _), bwtFwd_index_le x, fun hn => ?_,
    fun hn => ?_⟩
  · have hne : (bwtFwd x).2 ≠ 0 := fun h => by
      have hlast : (suffixArray x).idxOf x.length = (bwtFwd x).2 := (idxOf_suffixArray_length x).trans h.symm
      have hzero := (idxOf_suffixArray_eq_index_iff le_rfl).1 hlast
      omega
    exact Nat.one_le_iff_ne_zero.2 hne
  · have hrow := bwtFwd_getElem? (le_refl x.length)
    rw [idxOf_suffixArray_length, bwtByteBefore, if_neg (by omega)] at hrow
    rw [hrow, List.getD_eq_getElem x 0 (by omega), List.getElem?_eq_getElem (by omega)]

/-- Settles O40: the LF-mapping is the rank in the stable order. -/
theorem lfMappingIsTheStableSortPermutation : Obligations.LfMappingIsTheStableSortPermutation := fun t ix hix =>
  ⟨map_lfMap_perm t ix, lfMap_ordinals_index hix, fun _ _ hi hj => lfMap_ordinals_lt_iff hi hj⟩

/-- Settles O42: the first step stores the placeholder, and every later one puts its byte before it. -/
theorem inverseTransformIsTotal : Obligations.InverseTransformIsTotal := by
  intro t ix b hix
  refine ⟨bwtInv_length t ix, ?_, bwtInv_snd_lt hix, ?_⟩
  · obtain ⟨front, hfront, -⟩ :=
      bwtWalk_fst (t := t) (ix := ix) (o := ordinals t ix) (t.length - 1) 0 [sentinelByte]
    rw [bwtInv_eq_bwtWalk hix, hfront, List.getLast?_concat]
  · rw [bwtInv, ordinals_set, List.length_set, bwtWalk_congr (walkByte_set b), bwtInv]

end Sys2Proof.Machine
end

section
/-! SUPPORT. `MoveToFront` position by position, and the arrangements of the byte values that it keeps
(41_mtf.md R140, R141). -/

namespace Sys2Proof.Machine

open Sys2Proof

variable {p : List Byte}

/-! ### One move -/

theorem moveToFront_perm {j : Nat} (hj : j < p.length) : (moveToFront p j).Perm p := by
  rw [moveToFront, List.getD_eq_getElem p 0 hj]
  exact List.getElem_cons_eraseIdx_perm hj

theorem moveToFront_getElem?_zero {j : Nat} (hj : j < p.length) : (moveToFront p j)[0]? = p[j]? := by
  rw [moveToFront, List.getElem?_cons_zero, List.getD_eq_getElem p 0 hj, List.getElem?_eq_getElem hj]

theorem moveToFront_getElem?_of_le {j t : Nat} (hpos : 1 ≤ t) (hle : t ≤ j) : (moveToFront p j)[t]? = p[t - 1]? := by
  obtain ⟨t, rfl⟩ := Nat.exists_eq_add_one.2 hpos
  rw [moveToFront, List.getElem?_cons_succ, List.getElem?_eraseIdx_of_lt (by omega), Nat.add_sub_cancel]

theorem moveToFront_getElem?_of_lt {j t : Nat} (hlt : j < t) : (moveToFront p j)[t]? = p[t]? := by
  obtain ⟨t, rfl⟩ := Nat.exists_eq_add_one.2 (Nat.zero_lt_of_lt hlt)
  rw [moveToFront, List.getElem?_cons_succ, List.getElem?_eraseIdx_of_ge (by omega)]

theorem moveToFront_zero (hp : 0 < p.length) : moveToFront p 0 = p := by
  cases p with
  | nil => cases hp
  | cons b p => rfl

/-! ### Arrangements of the byte values -/

theorem mem_identityPerm (b : Byte) : b ∈ identityPerm :=
  List.mem_map.2 ⟨b.toNat, List.mem_range.2 b.isLt, (BitVec.ofNat_toNat 8 b).trans (BitVec.setWidth_eq b)⟩

theorem nodup_identityPerm : identityPerm.Nodup := by
  refine List.nodup_range.map_on fun i hi j hj hij => ?_
  have hmod := congrArg BitVec.toNat hij
  rwa [BitVec.toNat_ofNat, BitVec.toNat_ofNat, Nat.mod_eq_of_lt (List.mem_range.1 hi),
    Nat.mod_eq_of_lt (List.mem_range.1 hj)] at hmod

section
variable (hp : p.Perm identityPerm)
include hp

theorem length_of_perm_identityPerm : p.length = 256 := by simp [hp.length_eq, identityPerm]

theorem mem_of_perm_identityPerm (b : Byte) : b ∈ p := hp.mem_iff.2 (mem_identityPerm b)

/-- Every index byte is a position (41_mtf.md R143). -/
theorem toNat_lt_of_perm_identityPerm (z : Byte) : z.toNat < p.length :=
  length_of_perm_identityPerm hp ▸ z.isLt

/-- A position fits an index byte (41_mtf.md R142). -/
theorem toNat_ofNat_idxOf (b : Byte) : (BitVec.ofNat 8 (p.idxOf b)).toNat = p.idxOf b := by
  have hidx := List.idxOf_lt_length_of_mem (mem_of_perm_identityPerm hp b)
  rw [length_of_perm_identityPerm hp] at hidx
  exact (BitVec.toNat_ofNat _ 8).trans (Nat.mod_eq_of_lt hidx)

theorem getD_idxOf_of_perm (b : Byte) : p.getD (p.idxOf b) 0 = b := by
  rw [List.getD_eq_getElem?_getD, List.getElem?_idxOf (mem_of_perm_identityPerm hp b), Option.getD_some]

theorem idxOf_getD_of_perm (z : Byte) : p.idxOf (p.getD z.toNat 0) = z.toNat := by
  rw [List.getD_eq_getElem p 0 (toNat_lt_of_perm_identityPerm hp z)]
  exact (hp.nodup_iff.2 nodup_identityPerm).idxOf_getElem _ _

theorem moveToFront_idxOf_perm (b : Byte) : (moveToFront p (p.idxOf b)).Perm identityPerm :=
  (moveToFront_perm (List.idxOf_lt_length_of_mem (mem_of_perm_identityPerm hp b))).trans hp

theorem moveToFront_toNat_perm (z : Byte) : (moveToFront p z.toNat).Perm identityPerm :=
  (moveToFront_perm (toNat_lt_of_perm_identityPerm hp z)).trans hp

end

end Sys2Proof.Machine
end

section
/-! SUPPORT. The Move-to-Front coder from any permutation it can stand at: what is emitted at each step, and the two
directions against each other (41_mtf.md R142 to R144). -/

namespace Sys2Proof.Machine

open Sys2Proof

variable {p : List Byte}

/-! ### Lengths and single steps -/

@[simp] theorem mtfEncFrom_length (p y : List Byte) : (mtfEncFrom p y).length = y.length := by
  induction y generalizing p with
  | nil => rfl
  | cons b y ih => rw [mtfEncFrom, List.length_cons, List.length_cons, ih]

@[simp] theorem mtfDecFrom_length (p z : List Byte) : (mtfDecFrom p z).length = z.length := by
  induction z generalizing p with
  | nil => rfl
  | cons b z ih => rw [mtfDecFrom, List.length_cons, List.length_cons, ih]

@[simp] theorem mtfEnc_length (y : List Byte) : (mtfEnc y).length = y.length := mtfEncFrom_length identityPerm y

@[simp] theorem mtfDec_length (z : List Byte) : (mtfDec z).length = z.length := mtfDecFrom_length identityPerm z

/-- The encoder emits the position in the permutation left by the bytes before (41_mtf.md R142). -/
theorem mtfEncFrom_getElem? (p y : List Byte) (i : Nat) :
    (mtfEncFrom p y)[i]? = y[i]?.map fun b => BitVec.ofNat 8 ((mtfEncPerm p (y.take i)).idxOf b) := by
  induction y generalizing p i with
  | nil => rfl
  | cons b y ih =>
    cases i with
    | zero => rfl
    | succ i => exact ih _ i

/-- The decoder emits the byte at the position, in the permutation left by the index bytes before (41_mtf.md R143). -/
theorem mtfDecFrom_getElem? (p z : List Byte) (i : Nat) :
    (mtfDecFrom p z)[i]? = z[i]?.map fun b => (mtfDecPerm p (z.take i)).getD b.toNat 0 := by
  induction z generalizing p i with
  | nil => rfl
  | cons b z ih =>
    cases i with
    | zero => rfl
    | succ i => exact ih _ i

/-- The first outputs are those of the first inputs. -/
theorem mtfEncFrom_take (p y : List Byte) (i : Nat) : (mtfEncFrom p y).take i = mtfEncFrom p (y.take i) := by
  induction y generalizing p i with
  | nil => cases i <;> rfl
  | cons b y ih =>
    cases i with
    | zero => rfl
    | succ i => exact congrArg (_ :: ·) (ih _ i)

/-! ### The permutation stays one -/

theorem mtfEncPerm_perm (hp : p.Perm identityPerm) (y : List Byte) : (mtfEncPerm p y).Perm identityPerm := by
  induction y generalizing p with
  | nil => exact hp
  | cons b y ih => exact ih (moveToFront_idxOf_perm hp b)

theorem mtfDecPerm_perm (hp : p.Perm identityPerm) (z : List Byte) : (mtfDecPerm p z).Perm identityPerm := by
  induction z generalizing p with
  | nil => exact hp
  | cons b z ih => exact ih (moveToFront_toNat_perm hp b)

/-! ### Encode against decode -/

theorem mtfDecFrom_mtfEncFrom (hp : p.Perm identityPerm) (y : List Byte) : mtfDecFrom p (mtfEncFrom p y) = y := by
  induction y generalizing p with
  | nil => rfl
  | cons b y ih =>
    rw [mtfEncFrom, mtfDecFrom, toNat_ofNat_idxOf hp, getD_idxOf_of_perm hp, ih (moveToFront_idxOf_perm hp b)]

theorem mtfEncFrom_mtfDecFrom (hp : p.Perm identityPerm) (z : List Byte) : mtfEncFrom p (mtfDecFrom p z) = z := by
  induction z generalizing p with
  | nil => rfl
  | cons b z ih =>
    rw [mtfDecFrom, mtfEncFrom, idxOf_getD_of_perm hp, ih (moveToFront_toNat_perm hp b), BitVec.ofNat_toNat,
      BitVec.setWidth_eq]

/-- Decoding the encoded data moves the same bytes to the front (41_mtf.md R144). -/
theorem mtfDecPerm_mtfEncFrom (hp : p.Perm identityPerm) (y : List Byte) :
    mtfDecPerm p (mtfEncFrom p y) = mtfEncPerm p y := by
  induction y generalizing p with
  | nil => rfl
  | cons b y ih => rw [mtfEncFrom, mtfDecPerm, toNat_ofNat_idxOf hp, ih (moveToFront_idxOf_perm hp b), mtfEncPerm]

end Sys2Proof.Machine
end

section
/-! The statements about Move-to-Front (41_mtf.md), settled. -/

namespace Sys2Proof.Machine

open Sys2Proof

/-- Settles O43: the result is the byte at `j` before the list without it. -/
theorem moveToFrontShiftsTheFront : Obligations.MoveToFrontShiftsTheFront := fun _ _ hj =>
  ⟨moveToFront_perm hj, moveToFront_getElem?_zero hj, fun _ => moveToFront_getElem?_of_le,
    fun _ => moveToFront_getElem?_of_lt, moveToFront_zero (Nat.zero_lt_of_lt hj)⟩

/-- Settles O44: at every step the permutation arranges all byte values, so the byte has a position and the position a
byte. -/
theorem mtfEmitsCurrentPositions : Obligations.MtfEmitsCurrentPositions := by
  intro y i hi
  have henc := mtfEncPerm_perm (List.Perm.refl _) (y.take i)
  have hdec := mtfDecPerm_perm (List.Perm.refl _) (y.take i)
  have hy : y[i]? = some y[i] := List.getElem?_eq_getElem hi
  refine ⟨⟨_, by rw [mtfEnc, mtfEncFrom_getElem?, hy, Option.map_some], ?_⟩, ⟨y[i], hy, ?_⟩⟩
  · rw [toNat_ofNat_idxOf henc, List.getElem?_idxOf (mem_of_perm_identityPerm henc _), hy]
  · have hpos := toNat_lt_of_perm_identityPerm hdec y[i]
    rw [mtfDec, mtfDecFrom_getElem?, hy, Option.map_some, List.getD_eq_getElem _ 0 hpos, List.getElem?_eq_getElem hpos]

/-- Settles O45: both directions start from the identity permutation and move the same bytes. -/
theorem mtfDecodeAndEncodeAreInverse : Obligations.MtfDecodeAndEncodeAreInverse := by
  have hid := List.Perm.refl identityPerm
  refine ⟨fun y => ⟨mtfDecFrom_mtfEncFrom hid y, mtfEnc_length y⟩, mtfEncFrom_mtfDecFrom hid, fun y i _ => ?_⟩
  rw [mtfEnc, mtfEncFrom_take, mtfDecPerm_mtfEncFrom hid]

/-- Settles O18: the body passes both its limits. -/
theorem mtfeCompletesWithTheIndexBuffer : Obligations.MtfeCompletesWithTheIndexBuffer := by
  intro s hreg hmax hcap
  have hlen : (mtfEnc (sourceBytes s)).length = s.latched.len.toNat := by simp
  refine ⟨completesWith_of_body hreg ?_ (hlen.trans_le hcap) (by decide), hlen⟩
  simp only [bodyOf, mtfeBody, requireAtMost_ok hmax, requireAtMost_ok hcap]

/-- Settles O19: the body passes both its limits. -/
theorem mtfdCompletesWithTheBytes : Obligations.MtfdCompletesWithTheBytes := by
  intro s hreg hmax hcap
  have hlen : (mtfDec (sourceBytes s)).length = s.latched.len.toNat := by simp
  refine ⟨completesWith_of_body hreg ?_ (hlen.trans_le hcap) (by decide), hlen⟩
  simp only [bodyOf, mtfdBody, requireAtMost_ok hmax, requireAtMost_ok hcap]

end Sys2Proof.Machine
end

section
/-! SUPPORT. The byte values present in a buffer, and how often each stands in it (42_huffman_tree.md R160). -/

namespace Sys2Proof.Machine

open Sys2Proof

theorem mem_allBytes (v : Byte) : v ∈ allBytes := mem_identityPerm v

theorem nodup_allBytes : allBytes.Nodup := nodup_identityPerm

/-- A list that repeats no byte value has at most 256 elements (42_huffman_tree.md R160, R177). -/
theorem length_le_of_nodup_bytes {l : List Byte} (hl : l.Nodup) : l.length ≤ 256 := by
  have hsub := List.subperm_of_subset hl fun v _ => mem_allBytes v
  simpa [allBytes] using hsub.length_le

theorem hist_pos_iff {z : List Byte} {v : Byte} : 0 < hist z v ↔ v ∈ z := List.count_pos_iff

/-- A count that covers every value sums to the length. -/
theorem sum_map_hist {l z : List Byte} (hl : l.Nodup) (hz : ∀ v ∈ z, v ∈ l) : (l.map (hist z)).sum = z.length := by
  have hcard := Multiset.sum_count_eq_card (m := ↑z) fun v hv => List.mem_toFinset.2 (hz v hv)
  simp only [List.sum_toFinset _ hl, Multiset.coe_card, Multiset.coe_count] at hcard
  exact hcard

/-- The positions of a value are as many as its occurrences. -/
theorem hist_eq_length_filter_positions (z : List Byte) (v : Byte) :
    hist z v = ((List.range z.length).filter fun i => z[i]? = some v).length := by
  induction z with
  | nil => rfl
  | cons b z ih =>
    rw [hist] at ih
    rw [hist, List.count_cons, ih, List.length_cons, List.range_succ_eq_map, List.filter_cons, List.filter_map]
    by_cases hb : b = v <;> simp [hb, Function.comp_def]

/-- The values with a frequency above zero, in increasing order (42_huffman_tree.md R164). -/
def presentBytes (freq : Byte → Nat) : List Byte := allBytes.filter fun v => decide (freq v > 0)

theorem presentBytes_nodup (freq : Byte → Nat) : (presentBytes freq).Nodup := nodup_allBytes.filter _

/-- The values present are the distinct values of the buffer. -/
theorem presentBytes_hist_perm (z : List Byte) : (presentBytes (hist z)).Perm z.dedup := by
  refine (List.perm_ext_iff_of_nodup (presentBytes_nodup _) z.nodup_dedup).2 fun v => ?_
  rw [presentBytes, List.mem_filter, decide_eq_true_iff, List.mem_dedup]
  exact (and_iff_right (mem_allBytes v)).trans hist_pos_iff

theorem presentBytes_hist_eq_nil_iff {z : List Byte} : presentBytes (hist z) = [] ↔ z = [] := by
  rw [← List.dedup_eq_nil z, ← List.length_eq_zero_iff, (presentBytes_hist_perm z).length_eq, List.length_eq_zero_iff]

theorem sum_map_hist_presentBytes (z : List Byte) : ((presentBytes (hist z)).map (hist z)).sum = z.length :=
  sum_map_hist (presentBytes_nodup _) fun _ hv => (presentBytes_hist_perm z).mem_iff.2 (List.mem_dedup.2 hv)

end Sys2Proof.Machine
end

section
/-! SUPPORT. The builder's queue: its order is a strict one on weight and id, and putting a node in keeps it
(42_huffman_tree.md R165). -/

namespace Sys2Proof.Machine

open Sys2Proof

theorem qnodeBefore_iff {a b : QNode} :
    qnodeBefore a b = true ↔ a.weight < b.weight ∨ a.weight = b.weight ∧ a.id < b.id := by simp [qnodeBefore]

theorem qnodeBefore_trans {a b c : QNode} (hab : qnodeBefore a b = true) (hbc : qnodeBefore b c = true) :
    qnodeBefore a c = true := by
  rw [qnodeBefore_iff] at *
  omega

/-- Two nodes with different ids are in order one way or the other. -/
theorem qnodeBefore_of_not {a b : QNode} (hid : b.id ≠ a.id) (hab : ¬ qnodeBefore a b = true) :
    qnodeBefore b a = true := by
  rw [qnodeBefore_iff] at *
  omega

theorem enqueue_perm (n : QNode) (q : List QNode) : (enqueue n q).Perm (n :: q) := by
  fun_induction enqueue n q with
  | case1 => exact .refl _
  | case2 => exact .refl _
  | case3 a rest hbefore ih => exact (ih.cons a).trans (.swap n a rest)

theorem enqueue_pairwise {n : QNode} {q : List QNode} (hq : q.Pairwise fun a b => qnodeBefore a b = true)
    (hid : ∀ a ∈ q, a.id ≠ n.id) : (enqueue n q).Pairwise fun a b => qnodeBefore a b = true := by
  fun_induction enqueue n q with
  | case1 => exact List.pairwise_singleton _ _
  | case2 a rest hna =>
    refine hq.cons fun b hb => ?_
    rcases List.mem_cons.1 hb with rfl | hb
    · exact hna
    · exact qnodeBefore_trans hna (List.rel_of_pairwise_cons hq hb)
  | case3 a rest hna ih =>
    obtain ⟨ha, hrest⟩ := List.pairwise_cons.1 hq
    obtain ⟨hida, hidrest⟩ := List.forall_mem_cons.1 hid
    refine (ih hrest hidrest).cons fun b hb => ?_
    rcases List.mem_cons.1 ((enqueue_perm n rest).mem_iff.1 hb) with rfl | hb
    · exact qnodeBefore_of_not hida hna
    · exact ha b hb

end Sys2Proof.Machine
end

section
/-! SUPPORT. Trees and the merge loop (42_huffman_tree.md R162 to R167): what a tree has by its shape alone, and what
the loop keeps from the queue to the root. -/

namespace Sys2Proof.Machine

open Sys2Proof

/-! ### Trees -/

theorem treeSymbols_length_pos (t : Tree) : 0 < (treeSymbols t).length := by
  induction t with
  | leaf v => exact Nat.one_pos
  | node l r ihl ihr => rw [treeSymbols, List.length_append]; omega

theorem treeInternals_add_one (t : Tree) : treeInternals t + 1 = (treeSymbols t).length := by
  induction t with
  | leaf v => rfl
  | node l r ihl ihr => rw [treeSymbols, List.length_append, treeInternals]; omega

theorem treeHeight_lt_length (t : Tree) : treeHeight t < (treeSymbols t).length := by
  induction t with
  | leaf v => exact Nat.one_pos
  | node l r ihl ihr =>
    have hl := treeSymbols_length_pos l
    have hr := treeSymbols_length_pos r
    rw [treeSymbols, List.length_append, treeHeight]
    omega

/-- A tree without a repeated symbol has height at most `MAX_CODE_LEN` (42_huffman_tree.md R177). -/
theorem treeHeight_le_of_nodup {t : Tree} (ht : (treeSymbols t).Nodup) : treeHeight t ≤ 255 :=
  Nat.le_of_lt_succ ((treeHeight_lt_length t).trans_le (length_le_of_nodup_bytes ht))

/-! ### The merge loop -/

/-- The symbols on the trees of a queue. -/
def queueSymbols (q : List QNode) : List Byte := q.flatMap fun n => treeSymbols n.tree

/-- The sum of the weights of a queue. -/
def queueWeight (q : List QNode) : Nat := (q.map QNode.weight).sum

theorem queueSymbols_perm {p q : List QNode} (h : p.Perm q) : (queueSymbols p).Perm (queueSymbols q) :=
  h.flatMap_right _

theorem queueWeight_perm {p q : List QNode} (h : p.Perm q) : queueWeight p = queueWeight q := (h.map _).sum_eq

theorem queueSymbols_enqueue_mergeNodes (a b : QNode) (id : Nat) (q : List QNode) :
    (queueSymbols (enqueue (mergeNodes a b id) q)).Perm (queueSymbols (a :: b :: q)) := by
  refine (queueSymbols_perm (enqueue_perm _ q)).trans (.of_eq ?_)
  simp only [queueSymbols, mergeNodes, treeSymbols, List.flatMap_cons, List.append_assoc]

theorem queueWeight_enqueue_mergeNodes (a b : QNode) (id : Nat) (q : List QNode) :
    queueWeight (enqueue (mergeNodes a b id) q) = queueWeight (a :: b :: q) := by
  rw [queueWeight_perm (enqueue_perm _ q)]
  simp only [queueWeight, mergeNodes, List.map_cons, List.sum_cons, Nat.add_assoc]

@[simp] theorem enqueue_length (n : QNode) (q : List QNode) : (enqueue n q).length = q.length + 1 :=
  (enqueue_perm n q).length_eq

theorem mem_enqueue_self (n : QNode) (q : List QNode) : n ∈ enqueue n q :=
  (enqueue_perm n q).mem_iff.2 List.mem_cons_self

/-- As many rounds as there are nodes suffice (log 16). -/
theorem exists_mergeLoop {k : Nat} (next : Nat) {q : List QNode} (hq : q ≠ []) (hk : q.length ≤ k) :
    ∃ root, mergeLoop k next q = some root := by
  fun_induction mergeLoop k next q with
  | case1 next q => exact absurd (List.length_eq_zero_iff.1 (Nat.le_zero.1 hk)) hq
  | case2 => exact absurd rfl hq
  | case3 k next n => exact ⟨n, rfl⟩
  | case4 k next a b rest ih =>
    refine ih (List.ne_nil_of_mem (mem_enqueue_self _ _)) ?_
    rw [enqueue_length]
    exact Nat.le_of_succ_le_succ hk

section
variable {k next : Nat} {q : List QNode} {root : QNode}

theorem mergeLoop_symbols (h : mergeLoop k next q = some root) : (treeSymbols root.tree).Perm (queueSymbols q) := by
  fun_induction mergeLoop k next q with
  | case1 => cases h
  | case2 => cases h
  | case3 k next n =>
    cases h
    rw [queueSymbols, List.flatMap_singleton]
  | case4 k next a b rest ih => exact (ih h).trans (queueSymbols_enqueue_mergeNodes a b next rest)

theorem mergeLoop_weight (h : mergeLoop k next q = some root) : root.weight = queueWeight q := by
  fun_induction mergeLoop k next q with
  | case1 => cases h
  | case2 => cases h
  | case3 k next n =>
    cases h
    exact (List.sum_singleton).symm
  | case4 k next a b rest ih => exact (ih h).trans (queueWeight_enqueue_mergeNodes a b next rest)

/-- The node with the newest id stays in the queue until the next merge, so the root has the last id given
(42_huffman_tree.md R165, R167). -/
theorem mergeLoop_id (h : mergeLoop k next q = some root) (hnew : ∃ n ∈ q, n.id + 1 = next) :
    root.id + 2 = next + q.length := by
  fun_induction mergeLoop k next q with
  | case1 => cases h
  | case2 => cases h
  | case3 k next n =>
    cases h
    obtain ⟨m, hm, hid⟩ := hnew
    rw [List.mem_singleton.1 hm] at hid
    rw [List.length_singleton, ← hid]
  | case4 k next a b rest ih =>
    rw [ih h ⟨_, mem_enqueue_self _ _, rfl⟩, enqueue_length, List.length_cons, List.length_cons]
    omega

end

/-! ### The built tree -/

/-- The queue that the merge loop starts from. -/
theorem foldr_enqueue_perm (q : List QNode) : (q.foldr enqueue []).Perm q := by
  induction q with
  | nil => exact .refl _
  | cons n q ih => exact (enqueue_perm n _).trans (ih.cons n)

theorem leafNodes_length (freq : Byte → Nat) : (leafNodes freq).length = (presentBytes freq).length := by
  rw [leafNodes, List.length_map, List.length_zipIdx, presentBytes]

theorem queueSymbols_leafNodes (freq : Byte → Nat) : queueSymbols (leafNodes freq) = presentBytes freq := by
  rw [queueSymbols, leafNodes, List.flatMap_map]
  exact List.flatMap_pure_eq_map Prod.fst _ |>.trans (List.zipIdx_map_fst 0 _)

theorem queueWeight_leafNodes (freq : Byte → Nat) :
    queueWeight (leafNodes freq) = ((presentBytes freq).map freq).sum := by
  rw [queueWeight, leafNodes, List.map_map, presentBytes, ← List.zipIdx_map_fst 0 (allBytes.filter _), List.map_map,
    List.zipIdx_map_fst]
  rfl

/-- The last leaf has the id before the first merge's. -/
theorem exists_leafNodes_id {freq : Byte → Nat} (h : leafNodes freq ≠ []) :
    ∃ n ∈ leafNodes freq, n.id + 1 = (leafNodes freq).length := by
  refine ⟨(leafNodes freq).getLast h, List.getLast_mem h, ?_⟩
  have hpos := List.length_pos_iff.2 h
  rw [List.getLast_eq_getElem]
  simp only [leafNodes, List.getElem_map, List.getElem_zipIdx, List.length_map, List.length_zipIdx] at hpos ⊢
  omega

/-- What the merge loop leaves of the leaves (42_huffman_tree.md R166, R167). -/
theorem exists_buildRoot {freq : Byte → Nat} (h : presentBytes freq ≠ []) :
    ∃ root, buildRoot freq = some root ∧ (treeSymbols root.tree).Perm (presentBytes freq) ∧
      root.weight = ((presentBytes freq).map freq).sum ∧ root.id + 2 = 2 * (presentBytes freq).length := by
  have hperm := foldr_enqueue_perm (leafNodes freq)
  have hleaves : leafNodes freq ≠ [] := by
    rwa [← List.length_pos_iff, leafNodes_length, List.length_pos_iff]
  have hqueue : (leafNodes freq).foldr enqueue [] ≠ [] := fun hnil => hleaves (List.nil_perm.1 (hnil ▸ hperm))
  obtain ⟨root, hroot⟩ := exists_mergeLoop (leafNodes freq).length hqueue hperm.length_eq.le
  obtain ⟨n, hn, hid⟩ := exists_leafNodes_id hleaves
  refine ⟨root, hroot, ?_, ?_, ?_⟩
  · exact queueSymbols_leafNodes freq ▸ (mergeLoop_symbols hroot).trans (queueSymbols_perm hperm)
  · rw [mergeLoop_weight hroot, queueWeight_perm hperm, queueWeight_leafNodes]
  · rw [mergeLoop_id hroot ⟨n, hperm.mem_iff.2 hn, hid⟩, hperm.length_eq, leafNodes_length, Nat.two_mul]

theorem build_hist_nil : build (hist []) = none := by
  have hleaves : leafNodes (hist []) = [] := by
    rw [← List.length_eq_zero_iff, leafNodes_length, presentBytes_hist_eq_nil_iff.2 rfl, List.length_nil]
  rw [build, buildRoot, hleaves, List.length_nil, mergeLoop, Option.map_none]

theorem build_hist_eq_none_iff {z : List Byte} : build (hist z) = none ↔ z = [] := by
  refine ⟨fun h => ?_, fun h => h ▸ build_hist_nil⟩
  by_contra hz
  obtain ⟨root, hroot, -⟩ := exists_buildRoot (mt presentBytes_hist_eq_nil_iff.1 hz)
  rw [build, hroot] at h
  cases h

/-- The leaves of a built tree are the distinct values of the buffer (42_huffman_tree.md R167). -/
theorem treeSymbols_perm_of_build {z : List Byte} {t : Tree} (h : build (hist z) = some t) :
    (treeSymbols t).Perm z.dedup := by
  have hz : z ≠ [] := fun hz => by
    rw [build_hist_eq_none_iff.2 hz] at h
    cases h
  obtain ⟨root, hroot, hsyms, -⟩ := exists_buildRoot (mt presentBytes_hist_eq_nil_iff.1 hz)
  rw [build, hroot, Option.map_some, Option.some_inj] at h
  exact h ▸ hsyms.trans (presentBytes_hist_perm z)

theorem treeSymbols_nodup_of_build {z : List Byte} {t : Tree} (h : build (hist z) = some t) : (treeSymbols t).Nodup :=
  (treeSymbols_perm_of_build h).nodup_iff.2 z.nodup_dedup

theorem mem_treeSymbols_of_build {z : List Byte} {t : Tree} (h : build (hist z) = some t) {v : Byte} :
    v ∈ treeSymbols t ↔ v ∈ z := (treeSymbols_perm_of_build h).mem_iff.trans List.mem_dedup

end Sys2Proof.Machine
end

section
/-! SUPPORT. Codes are paths: every entry of a subtree's codes extends the path to the subtree, and the codes of the two
sides part at the edge (42_huffman_tree.md R168 to R170). -/

namespace Sys2Proof.Machine

open Sys2Proof

/-! ### Paths in a tree -/

theorem walkCodes_map_fst (t : Tree) (path : List Bool) : (walkCodes t path).map Prod.fst = treeSymbols t := by
  induction t generalizing path with
  | leaf v => rfl
  | node l r ihl ihr => rw [walkCodes, List.map_append, ihl, ihr, treeSymbols]

theorem prefix_of_mem_walkCodes {t : Tree} {path : List Bool} {e : Byte × List Bool} (he : e ∈ walkCodes t path) :
    path <+: e.2 := by
  induction t generalizing path with
  | leaf v => rw [List.mem_singleton.1 he]
  | node l r ihl ihr =>
    rcases List.mem_append.1 he with h | h
    · exact (List.prefix_append _ _).trans (ihl h)
    · exact (List.prefix_append _ _).trans (ihr h)

theorem length_le_of_mem_walkCodes {t : Tree} {path : List Bool} {e : Byte × List Bool} (he : e ∈ walkCodes t path) :
    e.2.length ≤ path.length + treeHeight t := by
  induction t generalizing path with
  | leaf v => rw [List.mem_singleton.1 he, treeHeight, Nat.add_zero]
  | node l r ihl ihr =>
    rw [treeHeight]
    rcases List.mem_append.1 he with h | h
    · have hlen := ihl h
      rw [List.length_append, List.length_singleton] at hlen
      omega
    · have hlen := ihr h
      rw [List.length_append, List.length_singleton] at hlen
      omega

/-- Neither of two codes is an initial part of the other. -/
def CodesApart (e f : Byte × List Bool) : Prop := ¬ e.2 <+: f.2 ∧ ¬ f.2 <+: e.2

/-- Extensions of one path by different bits. -/
theorem codesApart_of_prefix {path : List Bool} {b c : Bool} {e f : Byte × List Bool} (he : path ++ [b] <+: e.2)
    (hf : path ++ [c] <+: f.2) (hbc : b ≠ c) : CodesApart e f := by
  have hpart : ∀ {x : List Bool}, path ++ [b] <+: x → ¬ path ++ [c] <+: x := fun hb hc => by
    have hprefix := List.prefix_of_prefix_length_le hb hc (by simp)
    have heq := hprefix.eq_of_length (by simp)
    simp [hbc] at heq
  exact ⟨fun h => hpart (he.trans h) hf, fun h => hpart he (hf.trans h)⟩

theorem walkCodes_pairwise (t : Tree) (path : List Bool) : (walkCodes t path).Pairwise CodesApart := by
  induction t generalizing path with
  | leaf v => exact List.pairwise_singleton _ _
  | node l r ihl ihr =>
    refine List.pairwise_append.2 ⟨ihl _, ihr _, fun e he f hf => ?_⟩
    exact codesApart_of_prefix (prefix_of_mem_walkCodes he) (prefix_of_mem_walkCodes hf) Bool.false_ne_true

/-! ### The code table of a tree -/

theorem codes_map_fst (t : Tree) : (codes (some t)).map Prod.fst = treeSymbols t := by
  cases t with
  | leaf v => rfl
  | node l r => exact walkCodes_map_fst (.node l r) []

theorem codes_pairwise (t : Tree) : (codes (some t)).Pairwise CodesApart := by
  cases t with
  | leaf v => exact List.pairwise_singleton _ _
  | node l r => exact walkCodes_pairwise (.node l r) []

theorem one_le_length_of_mem_codes {t : Tree} {e : Byte × List Bool} (he : e ∈ codes (some t)) : 1 ≤ e.2.length := by
  cases t with
  | leaf v => rw [List.mem_singleton.1 he, List.length_singleton]
  | node l r =>
    rcases List.mem_append.1 he with h | h
    · exact (prefix_of_mem_walkCodes h).length_le
    · exact (prefix_of_mem_walkCodes h).length_le

/-- The one-leaf tree has height 0 and a code of one bit (42_huffman_tree.md R169). -/
theorem length_le_of_mem_codes {t : Tree} {e : Byte × List Bool} (he : e ∈ codes (some t)) :
    e.2.length ≤ max 1 (treeHeight t) := by
  cases t with
  | leaf v => rw [List.mem_singleton.1 he, List.length_singleton, treeHeight, Nat.max_zero]
  | node l r =>
    refine (length_le_of_mem_walkCodes he).trans ?_
    rw [List.length_nil, Nat.zero_add]
    exact le_max_right _ _

/-! ### Looking a code up -/

theorem codeOf_mem {table : CodeTable} {v : Byte} (hv : v ∈ table.map Prod.fst) : (v, codeOf table v) ∈ table := by
  induction table with
  | nil => cases hv
  | cons e rest ih =>
    rw [codeOf]
    split
    case isTrue h => exact h ▸ List.mem_cons_self
    case isFalse h =>
      rcases List.mem_cons.1 hv with hev | hv
      · exact absurd hev.symm h
      · exact List.mem_cons_of_mem _ (ih hv)

/-- In a table whose codes are apart, those of different values are. -/
theorem not_codeOf_prefix {table : CodeTable} {v w : Byte} (htable : table.Pairwise CodesApart)
    (hv : v ∈ table.map Prod.fst) (hw : w ∈ table.map Prod.fst) (hvw : v ≠ w) :
    ¬ codeOf table v <+: codeOf table w := by
  have hsymm : Std.Symm CodesApart := ⟨fun _ _ => And.symm⟩
  exact (htable.forall (codeOf_mem hv) (codeOf_mem hw) fun h => hvw (congrArg Prod.fst h)).1

/-- The codes of a built tree have an entry for each value of the buffer. -/
theorem mem_codes_build_iff {z : List Byte} {v : Byte} : v ∈ (codes (build (hist z))).map Prod.fst ↔ v ∈ z := by
  cases h : build (hist z) with
  | none =>
    rw [build_hist_eq_none_iff.1 h]
    exact Iff.rfl
  | some t => rw [codes_map_fst, mem_treeSymbols_of_build h]

end Sys2Proof.Machine
end

section
/-! SUPPORT. Bits packed into bytes and read back (43_bitstream.md R200 to R205): a packed bit string is the start of
the bits ahead of a reader at the start of its bytes, and reading takes the bits ahead one by one. -/

namespace Sys2Proof.Machine

open Sys2Proof

/-! ### Numbers and their bits -/

theorem two_mul_add_bitNat (v : Nat) (b : Bool) : 2 * v + bitNat b = Nat.bit b v := by cases b <;> rfl

/-- The number that a bit string stands for, first bit most significant, after `v`. -/
def numberOfBits (v : Nat) (bits : List Bool) : Nat := bits.foldl (fun v b => 2 * v + bitNat b) v

/-- Bit `i` of a string, counted from its end. -/
theorem testBit_numberOfBits (v : Nat) (bits : List Bool) {i : Nat} (hi : i < bits.length) :
    (numberOfBits v bits).testBit (bits.length - 1 - i) = bits[i] := by
  induction bits using List.reverseRecOn with
  | nil => cases hi
  | append_singleton bits b ih =>
    rw [numberOfBits, List.foldl_append, List.foldl_cons, List.foldl_nil, two_mul_add_bitNat]
    rw [List.length_append, List.length_singleton] at hi ⊢
    rcases Nat.lt_succ_iff_lt_or_eq.1 hi with hlt | rfl
    · have hbit := ih hlt
      rw [List.getElem_append_left hlt, ← hbit, show bits.length + 1 - 1 - i = bits.length - 1 - i + 1 by omega,
        Nat.testBit_bit_succ, numberOfBits]
    · rw [List.getElem_concat_length rfl, Nat.add_sub_cancel, Nat.sub_self, Nat.testBit_bit_zero]

/-- The byte of eight bits has them as its bits, bit 7 first. -/
theorem getMsbD_ofNat_numberOfBits (v : Nat) {bits : List Bool} (hbits : bits.length = 8) {i : Nat} (hi : i < 8) :
    (BitVec.ofNat 8 (numberOfBits v bits)).getMsbD i = bits[i] := by
  rw [← testBit_numberOfBits v bits (by omega), hbits, BitVec.getMsbD_eq_getLsbD, BitVec.getLsbD_ofNat,
    decide_eq_true hi, decide_eq_true (by omega : 8 - 1 - i < 8), Bool.true_and, Bool.true_and]

@[simp] theorem bits8_length (b : Byte) : (bits8 b).length = 8 := by rw [bits8, List.length_map, List.length_range]

theorem ofNat_numberOfBits_bits8 (b : Byte) : BitVec.ofNat 8 (numberOfBits 0 (bits8 b)) = b := by
  refine BitVec.eq_of_getMsbD_eq fun i hi => ?_
  rw [getMsbD_ofNat_numberOfBits 0 (bits8_length b) hi]
  simp only [bits8, List.getElem_map, List.getElem_range]

/-! ### Packing -/

/-- The first eight bits of a string, padded with zeros. -/
theorem byteOfBits_getMsbD (bits : List Bool) {i : Nat} (hi : i < 8) :
    (byteOfBits bits).getMsbD i = bits.getD i false := by
  have hfold : byteOfBits bits = BitVec.ofNat 8 (numberOfBits 0 ((List.range 8).map fun i => bits.getD i false)) := by
    rw [byteOfBits, numberOfBits, List.foldl_map]
  rw [hfold, getMsbD_ofNat_numberOfBits 0 (by simp) hi, List.getElem_map, List.getElem_range]

@[simp] theorem packBits_length (bits : List Bool) : (packBits bits).length = ceil8 bits.length := by
  rw [packBits, List.length_map, List.length_range]

/-- The packed bytes hold the bit string, then zeros (43_bitstream.md R202). -/
theorem streamBit_packBits {bits : List Bool} {q : Nat} (hq : q < 8 * ceil8 bits.length) :
    streamBit (packBits bits) q = bits.getD q false := by
  have hbyte : q / 8 < (packBits bits).length := by
    rw [packBits_length]
    omega
  have hbit : q % 8 < 8 := Nat.mod_lt _ (by decide)
  rw [streamBit, List.getD_eq_getElem _ _ hbyte]
  simp only [packBits, List.getElem_map, List.getElem_range]
  rw [byteOfBits_getMsbD _ hbit, List.getD_eq_getElem?_getD, List.getElem?_take_of_lt hbit, List.getElem?_drop,
    Nat.div_add_mod, List.getD_eq_getElem?_getD]

theorem streamBit_append_left {d rest : List Byte} {q : Nat} (hq : q < 8 * d.length) :
    streamBit (d ++ rest) q = streamBit d q := by
  rw [streamBit, List.getD_append _ _ _ _ (by omega), streamBit]

/-! ### The bits ahead of a reader -/

/-- The stream bits of a buffer, in order (43_bitstream.md R200). -/
def streamBits (d : List Byte) : List Bool := (List.range (8 * d.length)).map (streamBit d)

/-- The bits that a reader has not consumed. -/
def bitsAhead (r : BitReader) : List Bool := (streamBits r.data).drop r.pos

/-- A reader `k` bits further on. -/
def advance (r : BitReader) (k : Nat) : BitReader := { r with pos := r.pos + k }

@[simp] theorem streamBits_length (d : List Byte) : (streamBits d).length = 8 * d.length := by
  rw [streamBits, List.length_map, List.length_range]

theorem advance_advance (r : BitReader) (j k : Nat) : advance (advance r j) k = advance r (j + k) := by
  rw [advance, advance, advance, Nat.add_assoc]

theorem bitsAhead_advance (r : BitReader) (k : Nat) : bitsAhead (advance r k) = (bitsAhead r).drop k := by
  rw [bitsAhead, advance, bitsAhead, List.drop_drop]

/-- What stands ahead after the first bits are consumed. -/
theorem prefix_bitsAhead_advance {r : BitReader} {bits more : List Bool} (h : bits ++ more <+: bitsAhead r) :
    more <+: bitsAhead (advance r bits.length) := by
  rw [bitsAhead_advance]
  simpa using h.drop bits.length

theorem prefix_bitsAhead_advance_one {r : BitReader} {b : Bool} {more : List Bool} (h : b :: more <+: bitsAhead r) :
    more <+: bitsAhead (advance r 1) := prefix_bitsAhead_advance (bits := [b]) h

theorem packBits_prefix_streamBits (bits : List Bool) (rest : List Byte) :
    bits <+: streamBits (packBits bits ++ rest) := by
  have hceil : bits.length ≤ 8 * ceil8 bits.length := by
    rw [ceil8]
    omega
  refine List.prefix_iff_eq_take.2 (List.ext_getElem ?_ fun q hq _ => ?_)
  · rw [List.length_take, streamBits_length, List.length_append, packBits_length]
    omega
  · have hpack := streamBit_packBits (hq.trans_le hceil)
    rw [List.getElem_take]
    simp only [streamBits, List.getElem_map, List.getElem_range]
    rw [streamBit_append_left (by rw [packBits_length]; omega), hpack, List.getD_eq_getElem _ _ hq]

theorem packBits_prefix_bitsAhead (bits : List Bool) (rest : List Byte) (e : ErrCode) :
    bits <+: bitsAhead (newReader (packBits bits ++ rest) e) := packBits_prefix_streamBits bits rest

/-! ### Reading -/

theorem readBit_eq_of_prefix {r : BitReader} {b : Bool} {more : List Bool} (h : b :: more <+: bitsAhead r) :
    readBit r = .ok (b, advance r 1) := by
  have hlen := h.length_le
  rw [bitsAhead, List.length_drop, streamBits_length, List.length_cons] at hlen
  have hpos : r.pos < 8 * r.data.length := by omega
  have hbit : streamBit r.data r.pos = b := by
    obtain ⟨tail, htail⟩ := h
    have hhead := congrArg List.head? htail
    rw [bitsAhead, List.head?_drop, streamBits, List.getElem?_map, List.getElem?_range hpos] at hhead
    exact (Option.some_inj.1 hhead).symm
  rw [readBit, if_pos hpos, hbit, advance]

theorem readNumber_eq_of_prefix {r : BitReader} {bits : List Bool} (v : Nat) (h : bits <+: bitsAhead r) :
    readNumber bits.length v r = .ok (numberOfBits v bits, advance r bits.length) := by
  induction bits generalizing v r with
  | nil => rfl
  | cons b bits ih =>
    have hrest := ih (2 * v + bitNat b) (prefix_bitsAhead_advance_one h)
    simp only [List.length_cons, readNumber, readBit_eq_of_prefix h]
    rw [hrest, advance_advance, Nat.add_comm 1, numberOfBits, numberOfBits, List.foldl_cons]

/-! ### What a read can do -/

/-- A bit that is read leaves the buffer and the error as they are. -/
theorem readBit_ok {r r' : BitReader} {b : Bool} (h : readBit r = .ok (b, r')) :
    r' = advance r 1 ∧ r.pos + 1 ≤ 8 * r.data.length := by
  rw [readBit] at h
  split at h
  case isTrue hpos =>
    cases h
    exact ⟨rfl, hpos⟩
  case isFalse => cases h

theorem readBit_error {r : BitReader} {e : ErrCode} (h : readBit r = .error e) : e = r.eos := by
  rw [readBit] at h
  split at h
  · cases h
  · cases h
    rfl

theorem readNumber_ok {k v n : Nat} {r r' : BitReader} (h : readNumber k v r = .ok (n, r'))
    (hpos : r.pos ≤ 8 * r.data.length) : r' = advance r k ∧ r.pos + k ≤ 8 * r.data.length := by
  fun_induction readNumber k v r with
  | case1 v r =>
    cases h
    exact ⟨rfl, hpos⟩
  | case2 => cases h
  | case3 k v r br hread ih =>
    obtain ⟨hbr, hle⟩ := readBit_ok hread
    rw [hbr] at ih h
    obtain ⟨hr', hle'⟩ := ih h hle
    rw [advance_advance, Nat.add_comm 1] at hr'
    refine ⟨hr', ?_⟩
    simp only [advance] at hle'
    omega

theorem readNumber_error {k v : Nat} {r : BitReader} {e : ErrCode} (h : readNumber k v r = .error e) : e = r.eos := by
  fun_induction readNumber k v r with
  | case1 => cases h
  | case2 k v r e' hread =>
    cases h
    exact readBit_error hread
  | case3 k v r br hread ih =>
    rw [ih h, (readBit_ok hread).1, advance]

end Sys2Proof.Machine
end

section
/-! SUPPORT. The serializer and the deserializer (42_huffman_tree.md R171 to R177): a serialized tree ahead of the
reader is read back, and what a read of any bytes can give. -/

namespace Sys2Proof.Machine

open Sys2Proof

/-! ### Lengths -/

theorem serTree_length_add_one (t : Tree) : (serTree t).length + 1 = 10 * (treeSymbols t).length := by
  induction t with
  | leaf v => rw [serTree, List.length_cons, bits8_length, treeSymbols, List.length_singleton]
  | node l r ihl ihr =>
    rw [serTree, List.length_cons, List.length_append, treeSymbols, List.length_append]
    omega

@[simp] theorem treeBytes_length (t : Option Tree) : (treeBytes t).length = ceil8 (serBits t).length :=
  packBits_length (serBits t)

theorem le_ceil8 (k : Nat) : k ≤ 8 * ceil8 k := by
  rw [ceil8]
  omega

/-- The byte boundary after a position inside a buffer is inside it. -/
theorem ceil8_le_of_le {k n : Nat} (h : k ≤ 8 * n) : ceil8 k ≤ n := by
  rw [ceil8]
  omega

@[simp] theorem ceil8_mul_eight (k : Nat) : ceil8 (8 * k) = k := by
  rw [ceil8]
  omega

@[simp] theorem readerBytes_alignReader (r : BitReader) : readerBytes (alignReader r) = readerBytes r :=
  ceil8_mul_eight (ceil8 r.pos)

/-! ### Reading a serialized tree back -/

/-- The symbols of a tree, put before those seen already. -/
def seenAfter (t : Tree) (seen : List Byte) : List Byte := (treeSymbols t).reverse ++ seen

theorem seenAfter_node (l r : Tree) (seen : List Byte) :
    seenAfter (.node l r) seen = seenAfter r (seenAfter l seen) := by
  rw [seenAfter, treeSymbols, List.reverse_append, List.append_assoc, seenAfter, seenAfter]

theorem deserNode_leaf {k : Nat} {v : Byte} {r : BitReader} {seen : List Byte} (hv : v ∉ seen)
    (h : serTree (.leaf v) <+: bitsAhead r) :
    deserNode (k + 1) r seen = .ok (.leaf v, advance r (serTree (.leaf v)).length, v :: seen) := by
  have hsym : bits8 v <+: bitsAhead (advance r 1) := prefix_bitsAhead_advance_one h
  have hnumber := readNumber_eq_of_prefix 0 hsym
  rw [bits8_length, advance_advance] at hnumber
  simp only [deserNode, readBit_eq_of_prefix h, hnumber, ofNat_numberOfBits_bits8, if_neg hv, serTree, List.length_cons,
    bits8_length]

theorem deserNode_node {k : Nat} {lt rt : Tree} {r r1 r2 r3 : BitReader} {seen seen2 seen3 : List Byte}
    (hbit : readBit r = .ok (false, r1)) (hl : deserNode k r1 seen = .ok (lt, r2, seen2))
    (hr : deserNode k r2 seen2 = .ok (rt, r3, seen3)) : deserNode (k + 1) r seen = .ok (.node lt rt, r3, seen3) := by
  simp only [deserNode, hbit, hl, hr]

theorem deserNode_serTree {k : Nat} {t : Tree} {r : BitReader} {seen : List Byte} (hseen : (seenAfter t seen).Nodup)
    (hk : (serTree t).length ≤ k) (h : serTree t <+: bitsAhead r) :
    deserNode k r seen = .ok (t, advance r (serTree t).length, seenAfter t seen) := by
  induction t generalizing k r seen with
  | leaf v =>
    obtain ⟨k, rfl⟩ := Nat.exists_eq_add_one.2 (Nat.zero_lt_of_lt hk)
    exact deserNode_leaf (List.nodup_cons.1 hseen).1 h
  | node lt rt ihl ihr =>
    obtain ⟨k, rfl⟩ := Nat.exists_eq_add_one.2 (Nat.zero_lt_of_lt hk)
    have hlen : (serTree (.node lt rt)).length = 1 + (serTree lt).length + (serTree rt).length := by
      rw [serTree, List.length_cons, List.length_append, Nat.add_comm, Nat.add_assoc]
    have hboth : serTree lt ++ serTree rt <+: bitsAhead (advance r 1) := prefix_bitsAhead_advance_one h
    rw [seenAfter_node] at hseen ⊢
    have hl := ihl (k := k) (List.nodup_append.1 hseen).2.1 (by omega) ((List.prefix_append _ _).trans hboth)
    have hr := ihr (k := k) hseen (by omega) (prefix_bitsAhead_advance hboth)
    rw [deserNode_node (readBit_eq_of_prefix h) hl hr, advance_advance, advance_advance, hlen, Nat.add_assoc]

theorem deser_treeBytes {t : Tree} (rest : List Byte) (e : ErrCode) (ht : (treeSymbols t).Nodup) :
    ∃ r, deser (newReader (treeBytes (some t) ++ rest) e) = .ok (t, r) ∧
      readerBytes r = (treeBytes (some t)).length := by
  have hahead := packBits_prefix_bitsAhead (serTree t) rest e
  have hseen : (seenAfter t []).Nodup := by rwa [seenAfter, List.append_nil, List.nodup_reverse]
  have hfuel : (serTree t).length ≤ 8 * (treeBytes (some t) ++ rest).length + 1 := by
    have hceil := le_ceil8 (serTree t).length
    rw [List.length_append, treeBytes_length, serBits]
    omega
  have hnode := deserNode_serTree hseen hfuel hahead
  refine ⟨alignReader (advance (newReader (treeBytes (some t) ++ rest) e) (serTree t).length), ?_, ?_⟩
  · rw [deser]
    simp only [newReader, treeBytes, serBits] at hnode ⊢
    rw [hnode]
  · rw [readerBytes_alignReader, treeBytes_length, readerBytes, advance, newReader, Nat.zero_add, serBits]

/-! ### Reading any bytes -/

/-- What an accepted subtree leaves: its symbols are seen, and the reader has gone on inside the buffer. -/
theorem deserNode_ok {k : Nat} {r r' : BitReader} {seen seen' : List Byte} {t : Tree}
    (h : deserNode k r seen = .ok (t, r', seen')) :
    seen' = seenAfter t seen ∧ ∃ n, r' = advance r n ∧ r.pos + n ≤ 8 * r.data.length := by
  fun_induction deserNode k r seen generalizing t r' seen' with
  | case1 => cases h
  | case2 => cases h
  | case3 => cases h
  | case4 => cases h
  | case5 k r seen r1 hbit n r2 hnum =>
    cases h
    obtain ⟨rfl, hpos1⟩ := readBit_ok hbit
    obtain ⟨rfl, hpos2⟩ := readNumber_ok hnum hpos1
    exact ⟨rfl, 1 + 8, advance_advance r 1 8, hpos2⟩
  | case6 => cases h
  | case7 => cases h
  | case8 k r seen r1 hbit l r2 seen2 hl rt r3 seen3 hr ihl ihr =>
    cases h
    obtain ⟨rfl, -⟩ := readBit_ok hbit
    obtain ⟨rfl, j, rfl, -⟩ := ihl hl
    obtain ⟨rfl, m, rfl, hpos⟩ := ihr hr
    refine ⟨(seenAfter_node l rt seen).symm, 1 + j + m, by rw [advance_advance, advance_advance, Nat.add_assoc], ?_⟩
    simp only [advance] at hpos
    omega

/-- A symbol seen before is refused, so those seen stay distinct (42_huffman_tree.md R174). -/
theorem deserNode_seen_nodup {k : Nat} {r r' : BitReader} {seen seen' : List Byte} {t : Tree}
    (h : deserNode k r seen = .ok (t, r', seen')) (hseen : seen.Nodup) : seen'.Nodup := by
  fun_induction deserNode k r seen generalizing t r' seen' with
  | case1 => cases h
  | case2 => cases h
  | case3 => cases h
  | case4 => cases h
  | case5 k r seen r1 hbit n r2 hnum hfresh =>
    cases h
    exact List.nodup_cons.2 ⟨hfresh, hseen⟩
  | case6 => cases h
  | case7 => cases h
  | case8 k r seen r1 hbit l r2 seen2 hl rt r3 seen3 hr ihl ihr =>
    cases h
    exact ihr hr (ihl hl hseen)

theorem deserNode_error {k : Nat} {r : BitReader} {seen : List Byte} {e : ErrCode} (h : deserNode k r seen = .error e)
    (heos : r.eos = .corruptTree) : e = .corruptTree := by
  fun_induction deserNode k r seen with
  | case1 =>
    cases h
    rfl
  | case2 k r seen e' hbit =>
    cases h
    exact (readBit_error hbit).trans heos
  | case3 k r seen r1 hbit e' hnum =>
    cases h
    obtain ⟨rfl, -⟩ := readBit_ok hbit
    exact (readNumber_error hnum).trans heos
  | case4 =>
    cases h
    rfl
  | case5 => cases h
  | case6 k r seen r1 hbit e' hl ihl =>
    cases h
    obtain ⟨rfl, -⟩ := readBit_ok hbit
    exact ihl hl heos
  | case7 k r seen r1 hbit l r2 seen2 hl e' hr ihl ihr =>
    cases h
    obtain ⟨rfl, -⟩ := readBit_ok hbit
    obtain ⟨-, j, rfl, -⟩ := deserNode_ok hl
    exact ihr hr heos
  | case8 => cases h

theorem deser_ok {r r' : BitReader} {t : Tree} (h : deser r = .ok (t, r')) :
    (treeSymbols t).Nodup ∧ ∃ n, r' = alignReader (advance r n) ∧ r.pos + n ≤ 8 * r.data.length := by
  rw [deser] at h
  split at h
  next => cases h
  next t1 r1 seen1 hnode =>
    cases h
    obtain ⟨rfl, n, rfl, hle⟩ := deserNode_ok hnode
    have hnodup := deserNode_seen_nodup hnode List.nodup_nil
    rw [seenAfter, List.append_nil, List.nodup_reverse] at hnodup
    exact ⟨hnodup, n, rfl, hle⟩

theorem deser_error {r : BitReader} {e : ErrCode} (h : deser r = .error e) (heos : r.eos = .corruptTree) :
    e = .corruptTree := by
  rw [deser] at h
  split at h
  next e1 hnode =>
    cases h
    exact deserNode_error hnode heos
  next => cases h

end Sys2Proof.Machine
end

section
/-! The statements about the Huffman tree (42_huffman_tree.md), settled. -/

namespace Sys2Proof.Machine

open Sys2Proof

/-- Settles O46: the values with an entry are the distinct values. -/
theorem histogramCountsEveryByte : Obligations.HistogramCountsEveryByte := by
  intro z
  refine ⟨sum_map_hist nodup_allBytes fun v _ => mem_allBytes v, hist_eq_length_filter_positions z, ?_,
    length_le_of_nodup_bytes z.nodup_dedup, by rw [List.length_eq_zero_iff, List.dedup_eq_nil]⟩
  simpa [presentBytes, Nat.pos_iff_ne_zero] using (presentBytes_hist_perm z).length_eq

/-- Settles O47: a new id decides every tie of weights. -/
theorem queueStaysOrderedByWeightThenId : Obligations.QueueStaysOrderedByWeightThenId := fun n q hq hid =>
  ⟨enqueue_perm n q, enqueue_pairwise hq hid⟩

/-- Settles O48: the loop keeps the symbols and the weights, and the shape gives the internal nodes. -/
theorem builtTreeHasItsLeavesAndWeight : Obligations.BuiltTreeHasItsLeavesAndWeight := by
  refine ⟨build_hist_nil, fun z hz => ?_⟩
  obtain ⟨root, hroot, -, hweight, hid⟩ := exists_buildRoot (mt presentBytes_hist_eq_nil_iff.1 hz)
  have hbuild : build (hist z) = some root.tree := by rw [build, hroot, Option.map_some]
  have hlen := (treeSymbols_perm_of_build hbuild).length_eq
  rw [(presentBytes_hist_perm z).length_eq] at hid
  exact ⟨root, hroot, hbuild, treeSymbols_nodup_of_build hbuild, fun _ => mem_treeSymbols_of_build hbuild, hlen,
    (treeInternals_add_one root.tree).trans hlen, hweight.trans (sum_map_hist_presentBytes z), hid⟩

/-- Settles O49: an entry is a path, at most as long as the tree is high, and two paths part at a node. -/
theorem codesArePrefixFree : Obligations.CodesArePrefixFree := by
  intro z
  refine ⟨fun v => mem_codes_build_iff, ?_⟩
  cases h : build (hist z) with
  | none =>
    rw [build_hist_eq_none_iff.1 h]
    exact ⟨fun v hv => (List.not_mem_nil hv).elim, fun v hv => (List.not_mem_nil hv).elim⟩
  | some t =>
    have hentry : ∀ v ∈ z, v ∈ (codes (some t)).map Prod.fst := fun v hv => by
      rwa [codes_map_fst, mem_treeSymbols_of_build h]
    have hheight := treeHeight_le_of_nodup (treeSymbols_nodup_of_build h)
    refine ⟨fun v hv => ⟨one_le_length_of_mem_codes (codeOf_mem (hentry v hv)), ?_⟩, fun v hv w hw => ?_⟩
    · exact (length_le_of_mem_codes (codeOf_mem (hentry v hv))).trans (max_le (by decide) hheight)
    · exact not_codeOf_prefix (codes_pairwise t) (hentry v hv) (hentry w hw)

/-- Settles O50: a node adds one bit to those of its two sides. -/
theorem serializedTreeLength : Obligations.SerializedTreeLength := by
  refine ⟨rfl, fun t => ⟨serTree_length_add_one t, ?_⟩⟩
  rw [treeBytes_length, serBits, ← serTree_length_add_one t, Nat.add_sub_cancel]

/-- Settles O51: the tree's bits are ahead of the reader, and a built tree repeats no symbol. -/
theorem deserializerReadsBackTheTree : Obligations.DeserializerReadsBackTheTree :=
  ⟨fun _ rest e ht => deser_treeBytes rest e ht,
    fun _ rest _ h => deser_treeBytes rest .corruptTree (treeSymbols_nodup_of_build h)⟩

/-- Settles O52: the symbols read are those seen, which stay distinct, and both bounds follow from that. -/
theorem deserializerBoundsTheTree : Obligations.DeserializerBoundsTheTree := by
  refine fun d => ⟨fun t r h => ?_, fun e h => deser_error h rfl⟩
  obtain ⟨hnodup, n, rfl, hle⟩ := deser_ok h
  exact ⟨hnodup, length_le_of_nodup_bytes hnodup, treeHeight_le_of_nodup hnodup, Nat.mul_mod_right _ _,
    Nat.mul_le_mul_left 8 (ceil8_le_of_le hle)⟩

end Sys2Proof.Machine
end

section
/-! SUPPORT. The incremental writer holds the bits written so far, MSB-first, and zeros after them (43_bitstream.md
R201, R202). -/

namespace Sys2Proof.Machine

open Sys2Proof

/-! ### Buffers by their stream bits -/

/-- Buffers of one length with the same stream bits are the same. -/
theorem eq_of_streamBit_eq {d e : List Byte} (hlen : d.length = e.length)
    (h : ∀ q, q < 8 * d.length → streamBit d q = streamBit e q) : d = e := by
  refine List.ext_getElem hlen fun k hd he => BitVec.eq_of_getMsbD_eq fun i hi => ?_
  have hbit := h (8 * k + i) (by omega)
  rwa [streamBit, streamBit, show (8 * k + i) / 8 = k by omega, show (8 * k + i) % 8 = i by omega,
    List.getD_eq_getElem _ _ hd, List.getD_eq_getElem _ _ he] at hbit

/-- A last byte of zeros adds nothing but zeros, which is what stands past the end. -/
theorem streamBit_concat_zero (d : List Byte) (q : Nat) : streamBit (d ++ [0]) q = streamBit d q := by
  have hbyte : (d ++ [0]).getD (q / 8) 0 = d.getD (q / 8) 0 := by
    rcases Nat.lt_or_ge (q / 8) d.length with h | h
    · exact List.getD_append _ _ _ _ h
    · rw [List.getD_append_right _ _ _ _ h, List.getD_eq_default _ _ h]
      cases q / 8 - d.length <;> rfl
  rw [streamBit, hbyte, streamBit]

/-! ### The accumulator -/

/-- Bit `7 - c` of a byte is bit `c` from the top. -/
theorem getMsbD_or_bitNat (acc : Byte) (b : Bool) {c i : Nat} (hc : c < 8) (hi : i < 8) :
    (acc ||| BitVec.ofNat 8 (bitNat b <<< (7 - c))).getMsbD i = (acc.getMsbD i || (decide (i = c) && b)) := by
  have hplace : 7 - c = 7 - i ↔ i = c := by omega
  have hlow : 7 - i < 8 := by omega
  have hbit : (BitVec.ofNat 8 (bitNat b <<< (7 - c))).getMsbD i = (decide (i = c) && b) := by
    rw [BitVec.getMsbD_eq_getLsbD, BitVec.getLsbD_ofNat]
    cases b with
    | false => simp [bitNat]
    | true => simp [bitNat, Nat.one_shiftLeft, Nat.testBit_two_pow, hi, hlow, hplace]
  rw [BitVec.getMsbD_or, hbit]

/-- A bit put into the last byte is the stream bit at its place, and no other changes. -/
theorem streamBit_concat_or_bitNat (d : List Byte) (acc : Byte) (b : Bool) {c : Nat} (hc : c < 8) (q : Nat) :
    streamBit (d ++ [acc ||| BitVec.ofNat 8 (bitNat b <<< (7 - c))]) q =
      (streamBit (d ++ [acc]) q || (decide (q = 8 * d.length + c) && b)) := by
  rcases Nat.lt_trichotomy (q / 8) d.length with h | h | h
  · have hq : q ≠ 8 * d.length + c := by omega
    rw [streamBit_append_left (by omega), streamBit_append_left (by omega), decide_eq_false hq, Bool.false_and,
      Bool.or_false]
  · have hq : q % 8 = c ↔ q = 8 * d.length + c := by omega
    have hlast : ∀ x : Byte, (d ++ [x]).getD (q / 8) 0 = x := by simp [h]
    rw [streamBit, streamBit, hlast, hlast, getMsbD_or_bitNat acc b hc (Nat.mod_lt _ (by decide))]
    simp only [hq]
  · have hq : q ≠ 8 * d.length + c := by omega
    have hpast : ∀ x : Byte, (d ++ [x]).getD (q / 8) 0 = 0 := fun x =>
      List.getD_eq_default _ _ (by rw [List.length_append, List.length_singleton]; omega)
    rw [streamBit, streamBit, hpast, hpast, decide_eq_false hq, Bool.false_and, Bool.or_false]

/-! ### What the writer holds -/

/-- The writer after a bit string: its whole bytes are flushed, and the accumulator after them holds the other bits,
then zeros. -/
structure WriterHolds (w : BitWriter) (bits : List Bool) : Prop where
  count : w.count = bits.length % 8
  flushed : w.bytes.length = bits.length / 8
  bit : ∀ q, streamBit (w.bytes ++ [w.acc]) q = bits.getD q false

theorem writerHolds_empty : WriterHolds emptyWriter [] where
  count := rfl
  flushed := rfl
  bit q := by
    rw [emptyWriter, streamBit_concat_zero]
    simp [streamBit]

theorem getD_concat_false (bits : List Bool) (b : Bool) (q : Nat) :
    (bits ++ [b]).getD q false = (bits.getD q false || (decide (q = bits.length) && b)) := by
  rcases Nat.lt_trichotomy q bits.length with h | h | h
  · simp [h, h.ne, List.getElem?_append_left]
  · simp [h]
  · simp [h.ne', h.le, h]

theorem WriterHolds.writeBit {w : BitWriter} {bits : List Bool} (h : WriterHolds w bits) (b : Bool) :
    WriterHolds (writeBit w b) (bits ++ [b]) := by
  obtain ⟨hcount, hflushed, hbit⟩ := h
  have hplace : 8 * w.bytes.length + w.count = bits.length := by omega
  have hlen : (bits ++ [b]).length = bits.length + 1 := by rw [List.length_append, List.length_singleton]
  have hacc : ∀ q, streamBit (w.bytes ++ [w.acc ||| BitVec.ofNat 8 (bitNat b <<< (7 - w.count))]) q =
      (bits ++ [b]).getD q false := fun q => by
    rw [streamBit_concat_or_bitNat _ _ _ (by omega), hbit, hplace, getD_concat_false]
  unfold Machine.writeBit
  split
  case isTrue hfull =>
    refine ⟨?_, ?_, fun q => (streamBit_concat_zero _ q).trans (hacc q)⟩
    · simp only
      omega
    · rw [List.length_append, List.length_singleton]
      omega
  case isFalse hpart =>
    refine ⟨?_, ?_, hacc⟩
    · simp only
      omega
    · simp only
      omega

theorem writerHolds_foldl (bits : List Bool) : WriterHolds (bits.foldl writeBit emptyWriter) bits := by
  induction bits using List.reverseRecOn with
  | nil => exact writerHolds_empty
  | append_singleton bits b ih =>
    rw [List.foldl_append]
    exact ih.writeBit b

/-- Flushing drops an accumulator that holds no bit. -/
theorem WriterHolds.flush {w : BitWriter} {bits : List Bool} (h : WriterHolds w bits) :
    (flushWriter w).length = ceil8 bits.length ∧
      ∀ q, q < 8 * ceil8 bits.length → streamBit (flushWriter w) q = bits.getD q false := by
  obtain ⟨hcount, hflushed, hbit⟩ := h
  rw [flushWriter, ceil8]
  split
  case isTrue hpart =>
    refine ⟨?_, fun q _ => hbit q⟩
    rw [List.length_append, List.length_singleton]
    omega
  case isFalse hwhole =>
    refine ⟨by omega, fun q hq => ?_⟩
    rw [← hbit, streamBit_append_left (by omega)]

/-- The incremental writer packs (43_bitstream.md R202). -/
theorem writeBits_eq_packBits (bits : List Bool) : writeBits bits = packBits bits := by
  obtain ⟨hlen, hbit⟩ := (writerHolds_foldl bits).flush
  refine eq_of_streamBit_eq (hlen.trans (packBits_length bits).symm) fun q hq => ?_
  have hq' : q < 8 * ceil8 bits.length := hlen ▸ hq
  exact (hbit q hq').trans (streamBit_packBits hq').symm

end Sys2Proof.Machine
end

section
/-! SUPPORT. The unpacker (43_bitstream.md R207, R208): a code ahead of the reader is read as its symbol, and what a
read of any bits can give. -/

namespace Sys2Proof.Machine

open Sys2Proof

/-! ### Reading codes -/

/-- The bit ahead leads to a child, and the bits after it are the child's. -/
theorem decodeSymbol_node_of_cond {l rt : Tree} {b : Bool} {below : List Bool} {v : Byte}
    (h : ∀ r, below <+: bitsAhead r → decodeSymbol (cond b rt l) r = .ok (v, advance r below.length)) (r : BitReader)
    (hr : b :: below <+: bitsAhead r) :
    decodeSymbol (.node l rt) r = .ok (v, advance r (b :: below).length) := by
  have hchild : decodeSymbol (.node l rt) r = decodeSymbol (cond b rt l) (advance r 1) := by
    cases b <;> simp only [decodeSymbol, readBit_eq_of_prefix hr, cond]
  rw [hchild, h _ (prefix_bitsAhead_advance_one hr), advance_advance, Nat.add_comm, List.length_cons]

/-- A code is the path to its leaf, and the walk of the bits below a node goes to that leaf. -/
theorem decodeSymbol_of_mem_walkCodes {t : Tree} {path : List Bool} {e : Byte × List Bool}
    (he : e ∈ walkCodes t path) :
    ∃ below, e.2 = path ++ below ∧
      ∀ r, below <+: bitsAhead r → decodeSymbol t r = .ok (e.1, advance r below.length) := by
  induction t generalizing path with
  | leaf v =>
    rw [List.mem_singleton.1 he]
    exact ⟨[], (List.append_nil path).symm, fun r _ => rfl⟩
  | node l rt ihl ihr =>
    rcases List.mem_append.1 he with h | h
    · obtain ⟨below, hcode, hdec⟩ := ihl h
      exact ⟨false :: below, by rw [hcode, List.append_assoc, List.singleton_append],
        decodeSymbol_node_of_cond (b := false) hdec⟩
    · obtain ⟨below, hcode, hdec⟩ := ihr h
      exact ⟨true :: below, by rw [hcode, List.append_assoc, List.singleton_append],
        decodeSymbol_node_of_cond (b := true) hdec⟩

/-- A code of the table is read as its symbol, the one-leaf tree's `0` included (43_bitstream.md R207, R208). -/
theorem decodeNext_of_mem_codes {t : Tree} {e : Byte × List Bool} {r : BitReader} (he : e ∈ codes (some t))
    (h : e.2 <+: bitsAhead r) : decodeNext t r = .ok (e.1, advance r e.2.length) := by
  cases t with
  | leaf v =>
    rw [List.mem_singleton.1 he] at h ⊢
    simp only [decodeNext, decodeOneLeaf, readBit_eq_of_prefix h, List.length_singleton]
  | node l rt =>
    obtain ⟨below, hcode, hdec⟩ := decodeSymbol_of_mem_walkCodes (t := .node l rt) (path := []) he
    rw [List.nil_append] at hcode
    rw [decodeNext, hcode, hdec r (hcode ▸ h)]

theorem unpack_succ {t : Tree} {n : Nat} {r r1 r2 : BitReader} {v : Byte} {out : List Byte}
    (hnext : decodeNext t r = .ok (v, r1)) (hrest : unpack t n r1 = .ok (out, r2)) :
    unpack t (n + 1) r = .ok (v :: out, r2) := by
  simp only [unpack, hnext, hrest]

/-- The code bits of a buffer are read as the buffer (43_bitstream.md R206, R207). -/
theorem unpack_payloadBits {t : Tree} {z : List Byte} {r : BitReader} (hz : ∀ v ∈ z, v ∈ treeSymbols t)
    (h : payloadBits z (codes (some t)) <+: bitsAhead r) :
    unpack t z.length r = .ok (z, advance r (payloadBits z (codes (some t))).length) := by
  induction z generalizing r with
  | nil => rfl
  | cons v z ih =>
    obtain ⟨hv, hz⟩ := List.forall_mem_cons.1 hz
    have hcode := codeOf_mem ((codes_map_fst t).symm ▸ hv)
    rw [payloadBits, List.flatMap_cons, ← payloadBits] at h ⊢
    have hnext := decodeNext_of_mem_codes hcode ((List.prefix_append _ _).trans h)
    rw [List.length_cons, unpack_succ hnext (ih hz (prefix_bitsAhead_advance h)), advance_advance, List.length_append]

/-! ### The one-leaf tree -/

theorem decodeNext_leaf_zero (v : Byte) {r : BitReader} (hpos : r.pos < 8 * r.data.length)
    (hbit : streamBit r.data r.pos = false) : decodeNext (.leaf v) r = .ok (v, advance r 1) := by
  simp only [decodeNext, decodeOneLeaf, readBit, if_pos hpos, hbit, advance]

theorem decodeNext_leaf_one (v : Byte) {r : BitReader} (hpos : r.pos < 8 * r.data.length)
    (hbit : streamBit r.data r.pos = true) : decodeNext (.leaf v) r = .error .corruptStream := by
  simp only [decodeNext, decodeOneLeaf, readBit, if_pos hpos, hbit]

theorem decodeNext_leaf_eos (v : Byte) {r : BitReader} (hpos : 8 * r.data.length ≤ r.pos) :
    decodeNext (.leaf v) r = .error r.eos := by
  simp only [decodeNext, decodeOneLeaf, readBit, if_neg hpos.not_gt]

theorem unpack_leaf_zeros (v : Byte) {count : Nat} {r : BitReader}
    (h : ∀ k, k < count → r.pos + k < 8 * r.data.length ∧ streamBit r.data (r.pos + k) = false) :
    unpack (.leaf v) count r = .ok (List.replicate count v, advance r count) := by
  induction count generalizing r with
  | zero => rfl
  | succ n ih =>
    obtain ⟨hpos, hbit⟩ := h 0 n.succ_pos
    have hrest : ∀ k, k < n → (advance r 1).pos + k < 8 * (advance r 1).data.length ∧
        streamBit (advance r 1).data ((advance r 1).pos + k) = false := fun k hk => by
      have hk1 := h (k + 1) (Nat.succ_lt_succ hk)
      rwa [Nat.add_comm k 1, ← Nat.add_assoc] at hk1
    rw [unpack_succ (decodeNext_leaf_zero v hpos hbit) (ih hrest), advance_advance, Nat.add_comm 1, List.replicate_succ]

/-- An error at a symbol is the error of the whole, after whatever symbols were read before it. -/
theorem unpack_error_of_decodeNext {t : Tree} {k count : Nat} {r r1 : BitReader} {out : List Byte} {e : ErrCode}
    (hk : k < count) (hfirst : unpack t k r = .ok (out, r1)) (herr : decodeNext t r1 = .error e) :
    unpack t count r = .error e := by
  induction k generalizing count r out with
  | zero =>
    obtain ⟨n, rfl⟩ := Nat.exists_eq_add_one.2 hk
    cases hfirst
    simp only [unpack, herr]
  | succ k ih =>
    obtain ⟨n, rfl⟩ := Nat.exists_eq_add_one.2 (Nat.zero_lt_of_lt hk)
    rw [unpack] at hfirst
    split at hfirst
    next => cases hfirst
    next v r2 hnext =>
      split at hfirst
      next => cases hfirst
      next out2 r3 hrest =>
        cases hfirst
        simp only [unpack, hnext, ih (Nat.lt_of_succ_lt_succ hk) hrest]

/-! ### Reading any bits -/

theorem readBit_eos {r r' : BitReader} {b : Bool} (h : readBit r = .ok (b, r')) : r'.eos = r.eos := by
  rw [(readBit_ok h).1, advance]

theorem decodeSymbol_eos {t : Tree} {r r' : BitReader} {v : Byte} (h : decodeSymbol t r = .ok (v, r')) :
    r'.eos = r.eos := by
  fun_induction decodeSymbol t r with
  | case1 =>
    cases h
    rfl
  | case2 => cases h
  | case3 l rt r r1 hbit ih => exact (ih h).trans (readBit_eos hbit)
  | case4 l rt r r1 hbit ih => exact (ih h).trans (readBit_eos hbit)

theorem decodeSymbol_error {t : Tree} {r : BitReader} {e : ErrCode} (h : decodeSymbol t r = .error e) : e = r.eos := by
  fun_induction decodeSymbol t r with
  | case1 => cases h
  | case2 l rt r e' hbit =>
    cases h
    exact readBit_error hbit
  | case3 l rt r r1 hbit ih => exact (ih h).trans (readBit_eos hbit)
  | case4 l rt r r1 hbit ih => exact (ih h).trans (readBit_eos hbit)

/-- An internal root raises only the reader's error (43_bitstream.md R207). -/
theorem unpack_node_error {l rt : Tree} {count : Nat} {r : BitReader} {e : ErrCode}
    (h : unpack (.node l rt) count r = .error e) : e = r.eos := by
  fun_induction unpack (.node l rt) count r with
  | case1 => cases h
  | case2 n r e' hnext =>
    cases h
    exact decodeSymbol_error hnext
  | case3 n r v r1 hnext e' hrest ih =>
    cases h
    exact (ih hrest).trans (decodeSymbol_eos hnext)
  | case4 => cases h

theorem unpack_length {t : Tree} {count : Nat} {r r' : BitReader} {out : List Byte}
    (h : unpack t count r = .ok (out, r')) : out.length = count := by
  fun_induction unpack t count r generalizing out r' with
  | case1 =>
    cases h
    rfl
  | case2 => cases h
  | case3 => cases h
  | case4 n r v r1 hnext out r2 hrest ih =>
    cases h
    rw [List.length_cons, ih hrest]

end Sys2Proof.Machine
end

section
/-! SUPPORT. The Huffman stage (43_bitstream.md R209 to R215): what the decoder needs of its source to give a buffer
back, and what it can give for any source. -/

namespace Sys2Proof.Machine

open Sys2Proof

/-! ### The encoder -/

theorem hufEnc_nil : hufEnc [] = ([], 0) := by
  rw [hufEnc, build_hist_nil]
  rfl

theorem hufEnc_of_build {z : List Byte} {t : Tree} (h : build (hist z) = some t) :
    hufEnc z = (treeBytes (some t) ++ pack z (codes (some t)), (treeBytes (some t)).length) := by
  rw [hufEnc, h]

theorem hufEnc_snd_le (z : List Byte) : (hufEnc z).2 ≤ (hufEnc z).1.length := by
  rw [hufEnc, List.length_append]
  exact Nat.le_add_right _ _

/-! ### Stream bits of a part of a buffer -/

theorem streamBits_drop (d : List Byte) (k : Nat) : streamBits (d.drop k) = (streamBits d).drop (8 * k) := by
  refine List.ext_getElem (by simp [Nat.mul_sub]) fun q _ _ => ?_
  simp only [streamBits, List.getElem_drop, List.getElem_map, List.getElem_range, streamBit,
    List.getD_eq_getElem?_getD, List.getElem?_drop]
  rw [Nat.mul_add_div (by decide), Nat.mul_add_mod]

/-- Buffers of one length that agree in the bits of a string both hold it. -/
theorem prefix_drop_streamBits_congr {bits : List Bool} {d e : List Byte} {p : Nat} (hlen : d.length = e.length)
    (hagree : ∀ q, p ≤ q → q < p + bits.length → streamBit d q = streamBit e q)
    (h : bits <+: (streamBits e).drop p) : bits <+: (streamBits d).drop p := by
  rw [List.prefix_iff_eq_take] at h ⊢
  refine h.trans (List.ext_getElem (by simp [hlen]) fun q hq _ => ?_)
  rw [← h] at hq
  simp only [streamBits, List.getElem_take, List.getElem_drop, List.getElem_map, List.getElem_range]
  exact (hagree (p + q) (by omega) (by omega)).symm

/-! ### The decoder on the bits of an encoding -/

theorem deser_of_prefix {t : Tree} {r : BitReader} (ht : (treeSymbols t).Nodup) (h : serTree t <+: bitsAhead r) :
    deser r = .ok (t, alignReader (advance r (serTree t).length)) := by
  have hseen : (seenAfter t []).Nodup := by rwa [seenAfter, List.append_nil, List.nodup_reverse]
  have hfuel : (serTree t).length ≤ 8 * r.data.length + 1 := by
    have hlen := h.length_le
    rw [bitsAhead, List.length_drop, streamBits_length] at hlen
    omega
  simp only [deser, deserNode_serTree hseen hfuel h]

/-- The decoder looks at the tree's bits, the code bits and the number of bytes, and at nothing else of its source
(43_bitstream.md R211, R214). -/
theorem hufDec_of_prefix {z d : List Byte} {t : Tree} (hz : z ≠ []) (ht : (treeSymbols t).Nodup)
    (hsyms : ∀ v ∈ z, v ∈ treeSymbols t)
    (hlen : d.length = (treeBytes (some t)).length + (pack z (codes (some t))).length)
    (htree : serTree t <+: streamBits d)
    (hcode : payloadBits z (codes (some t)) <+: (streamBits d).drop (8 * (treeBytes (some t)).length)) :
    hufDec d z.length = .ok (z, (treeBytes (some t)).length) := by
  have hdeser := deser_of_prefix (r := newReader d .corruptTree) ht htree
  have hbytes : readerBytes (alignReader (advance (newReader d .corruptTree) (serTree t).length)) =
      (treeBytes (some t)).length := by
    rw [readerBytes_alignReader, treeBytes_length, readerBytes, advance, newReader, Nat.zero_add, serBits]
  rw [← streamBits_drop] at hcode
  have hunpack := unpack_payloadBits
    (r := newReader (d.drop (treeBytes (some t)).length) .sizeMismatch) hsyms hcode
  have hend : (d.drop (treeBytes (some t)).length).length = ceil8 (payloadBits z (codes (some t))).length := by
    rw [List.length_drop, hlen, Nat.add_sub_cancel_left, pack, packBits_length]
  rw [hufDec, if_neg (mt List.length_eq_zero_iff.1 hz)]
  simp only [hdeser, hbytes, hunpack]
  rw [advance, newReader, Nat.zero_add, if_neg (not_not.2 hend)]

/-! ### The decoder on any source -/

theorem hufDec_ok {src out : List Byte} {count tlen : Nat} (h : hufDec src count = .ok (out, tlen)) :
    out.length = count ∧ tlen ≤ src.length := by
  rw [hufDec] at h
  split at h
  next hcount =>
    split at h
    next => cases h
    next =>
      cases h
      exact ⟨hcount.symm, Nat.zero_le _⟩
  next =>
    split at h
    next => cases h
    next t rt hdeser =>
      split at h
      next => cases h
      next out1 rp hunpack =>
        split at h
        next => cases h
        next =>
          cases h
          obtain ⟨-, n, rfl, hle⟩ := deser_ok hdeser
          exact ⟨unpack_length hunpack, (readerBytes_alignReader _).trans_le (ceil8_le_of_le hle)⟩

end Sys2Proof.Machine
end

section
/-! SUPPORT. A command enters the error that its body raises (30_encoding.md R99, 60_exceptions.md R280). -/

namespace Sys2Proof.Machine

open Sys2Proof

theorem failsWith_of_body {i : Instr} {s : State} {e : ErrCode} (hreg : RegionsOk s)
    (hbody : bodyOf i s.cfg (sourceBytes s) s.latched.len.toNat s.latched.cap.toNat s.latched.aux.toNat = .error e) :
    FailsWith i s e.code := by
  have hexec : execBody (bodyOf i) s = .error e := by
    rw [execBody, (checkRegions_ok_iff s).2 hreg]
    simp only [hbody]
  rw [FailsWith, exec_eq_complete, complete, hexec]
  rfl

end Sys2Proof.Machine
end

section
/-! The statements about the bit stream (43_bitstream.md), settled. -/

namespace Sys2Proof.Machine

open Sys2Proof

/-- Settles O56: a source that agrees with the encoding in the tree's bits and the code bits holds both where the
decoder reads them. -/
theorem decoderIgnoresPaddingBits : Obligations.DecoderIgnoresPaddingBits := by
  intro z d hlen hagree
  cases hbuild : build (hist z) with
  | none =>
    obtain rfl := build_hist_eq_none_iff.1 hbuild
    rw [hufEnc_nil] at hlen ⊢
    rw [List.length_eq_zero_iff.1 hlen]
    rfl
  | some t =>
    have hz : z ≠ [] := fun hnil => by simp [hnil, build_hist_nil] at hbuild
    rw [hufEnc_of_build hbuild] at hlen hagree ⊢
    rw [hbuild] at hagree
    refine hufDec_of_prefix hz (treeSymbols_nodup_of_build hbuild) (fun v => (mem_treeSymbols_of_build hbuild).2)
      (hlen.trans List.length_append) ?_ ?_
    · refine prefix_drop_streamBits_congr (p := 0) hlen (fun q _ hq => hagree q (.inl ?_)) ?_
      · rwa [Nat.zero_add] at hq
      · exact packBits_prefix_streamBits (serTree t) _
    · refine prefix_drop_streamBits_congr hlen (fun q hle hlt => hagree q (.inr ⟨hle, hlt⟩)) ?_
      rw [← streamBits_drop, List.drop_left]
      exact List.append_nil (pack z _) ▸ packBits_prefix_streamBits (payloadBits z (codes (some t))) []

/-- Settles O55: an encoding agrees with itself. -/
theorem huffmanDecodeUndoesEncode : Obligations.HuffmanDecodeUndoesEncode := fun z =>
  decoderIgnoresPaddingBits z (hufEnc z).1 rfl fun _ _ => rfl

/-- Settles O53: the writer holds the bits written, and its last bytes are those of the packed string. -/
theorem packedBytesHoldTheBits : Obligations.PackedBytesHoldTheBits := fun bits =>
  ⟨packBits_length bits, fun _ => streamBit_packBits, writeBits_eq_packBits bits⟩

/-- Settles O54: the zeros are read one by one, and the bit after them decides the error. -/
theorem unpackerTakesOneBitPerSymbolOfOneLeaf : Obligations.UnpackerTakesOneBitPerSymbolOfOneLeaf := by
  refine ⟨fun v count r => ⟨unpack_leaf_zeros v, fun k hk hzeros => ?_⟩, fun _ _ _ _ _ => unpack_node_error⟩
  have herr := fun e => unpack_error_of_decodeNext (e := e) hk (unpack_leaf_zeros v hzeros)
  exact ⟨fun hpos hbit => herr _ (decodeNext_leaf_one v hpos hbit), fun hend => herr _ (decodeNext_leaf_eos v hend)⟩

/-- Settles O20: the body passes both its limits, and the tree bytes are a part of the result. -/
theorem hufeCompletesWithTreeAndPayload : Obligations.HufeCompletesWithTreeAndPayload := by
  intro s hreg hmax hcap
  have hraux : (hufEnc (sourceBytes s)).2 < 2 ^ 32 := ((hufEnc_snd_le _).trans hcap).trans_lt s.latched.cap.isLt
  refine completesWith_of_body hreg ?_ hcap hraux
  simp only [bodyOf, hufeBody, requireAtMost_ok hmax, requireAtMost_ok hcap]

/-- Settles O21: past its two limits the body is the decoder, whose tree bytes lie in the source. -/
theorem hufdCompletesWithTheSymbols : Obligations.HufdCompletesWithTheSymbols := by
  intro s hreg hmax hcap
  have hbody : bodyOf .hufd s.cfg (sourceBytes s) s.latched.len.toNat s.latched.cap.toNat s.latched.aux.toNat =
      hufDec (sourceBytes s) s.latched.aux.toNat := by
    simp only [bodyOf, hufdBody, requireAtMost_ok hmax, requireAtMost_ok hcap]
  refine ⟨fun out tlen hdec => ?_, fun e hdec => failsWith_of_body hreg (hbody.trans hdec)⟩
  obtain ⟨hout, htlen⟩ := hufDec_ok hdec
  rw [sourceBytes_length] at htlen
  have hraux : tlen < 2 ^ 32 := htlen.trans_lt s.latched.len.isLt
  exact ⟨completesWith_of_body hreg (hbody.trans hdec) (hout.trans_le hcap) hraux, hout⟩

end Sys2Proof.Machine
end

section
/-! SUPPORT. The integer fields of an envelope, what the decoders are past their header tests, and the envelope that
`Compress` writes (44_container.md R240 to R248). -/

namespace Sys2Proof.Machine

open Sys2Proof

/-! ### The integer fields -/

@[simp] theorem u32le_length (v : Nat) : (u32le v).length = 4 := rfl

theorem le32_u32le {v : Nat} (hv : v < 2 ^ 32) : le32 (u32le v) = v := by
  simp only [le32, u32le, List.getD_cons_zero, List.getD_cons_succ, BitVec.toNat_ofNat]
  omega

theorem u32le_getD_toNat {v k : Nat} (hk : k < 4) : ((u32le v).getD k 0).toNat = v / 256 ^ k % 256 := by
  match k, hk with
  | 0, _ => rw [pow_zero, Nat.div_one]; rfl
  | 1, _ => rfl
  | 2, _ => rfl
  | 3, _ => rfl

theorem ofNat_eq_of_mod {n : Nat} {b : Byte} (h : n % 256 = b.toNat) : BitVec.ofNat 8 n = b :=
  BitVec.eq_of_toNat_eq ((BitVec.toNat_ofNat n 8).trans h)

theorem u32le_le32 {b : List Byte} (hb : b.length = 4) : u32le (le32 b) = b := by
  obtain ⟨b0, b1, b2, b3, rfl⟩ := List.length_eq_four.1 hb
  have h0 := b0.isLt
  have h1 := b1.isLt
  have h2 := b2.isLt
  have h3 := b3.isLt
  simp only [u32le, le32, List.getD_cons_zero, List.getD_cons_succ, List.cons.injEq, and_true]
  exact ⟨ofNat_eq_of_mod (by omega), ofNat_eq_of_mod (by omega), ofNat_eq_of_mod (by omega),
    ofNat_eq_of_mod (by omega)⟩

theorem envelopeSize_u32le {n : Nat} (hn : n < 2 ^ 32) (rest : List Byte) : envelopeSize (u32le n ++ rest) = n := by
  rw [envelopeSize, List.take_left' (u32le_length n), le32_u32le hn]

theorem envelopeIndex_u32le {n ix : Nat} (hix : ix < 2 ^ 32) (rest : List Byte) :
    envelopeIndex (u32le n ++ u32le ix ++ rest) = ix := by
  rw [envelopeIndex, List.append_assoc, List.drop_left' (u32le_length n), List.take_left' (u32le_length ix),
    le32_u32le hix]

/-! ### Decoders past their header -/

theorem decompress_eq {maxN cap : Nat} {e : List Byte} (hlen : 8 ≤ e.length) (hmax : envelopeSize e ≤ maxN)
    (hcap : envelopeSize e ≤ cap) (hix : envelopeIndex e ≤ envelopeSize e) :
    decompress maxN e cap = (hufDec (e.drop 8) (envelopeSize e + 1)).map fun z =>
      ((bwtInv (mtfDec z.1) (envelopeIndex e)).1.take (envelopeSize e), envelopeIndex e) := by
  simp only [envelopeSize, envelopeIndex] at *
  rw [decompress, if_neg hlen.not_gt]
  simp only [requireAtMost_ok hmax, requireAtMost_ok hcap, if_neg hix.not_gt]
  cases hufDec (e.drop 8) (le32 (e.take 4) + 1) <;> rfl

theorem hDecompress_eq {maxN cap : Nat} {e : List Byte} (hlen : 4 ≤ e.length) (hmax : envelopeSize e ≤ maxN + 1)
    (hcap : envelopeSize e ≤ cap) : hDecompress maxN e cap = hufDec (e.drop 4) (envelopeSize e) := by
  rw [envelopeSize] at *
  rw [hDecompress, if_neg hlen.not_gt]
  simp only [requireAtMost_ok hmax, requireAtMost_ok hcap]

/-- A header written from values in range is read as those values (44_container.md R240, R244). -/
theorem decompress_fields {maxN cap n ix : Nat} (hn : n < 2 ^ 32) (hmax : n ≤ maxN) (hcap : n ≤ cap) (hix : ix ≤ n)
    (h : List Byte) :
    decompress maxN (u32le n ++ u32le ix ++ h) cap =
      (hufDec h (n + 1)).map fun z => ((bwtInv (mtfDec z.1) ix).1.take n, ix) := by
  have hsize : envelopeSize (u32le n ++ u32le ix ++ h) = n := by rw [List.append_assoc, envelopeSize_u32le hn]
  have hindex := envelopeIndex_u32le (n := n) (hix.trans_lt hn) h
  have hlen : 8 ≤ (u32le n ++ u32le ix ++ h).length := List.length_append.trans_ge (Nat.le_add_right 8 h.length)
  rw [decompress_eq hlen (by rwa [hsize]) (by rwa [hsize]) (by rwa [hindex, hsize]), hsize, hindex]
  rfl

/-! ### The envelope that `Compress` writes -/

theorem mtfEnc_bwtFwd_length (x : List Byte) : (mtfEnc (bwtFwd x).1).length = x.length + 1 := by
  rw [mtfEnc_length, bwtFwd_length]

theorem compress_length (x : List Byte) : (compress x).1.length = 8 + (hufEnc (mtfEnc (bwtFwd x).1)).1.length :=
  List.length_append

theorem compress_take (x : List Byte) (m : Nat) :
    (compress x).1.take (8 + m) = u32le x.length ++ u32le (bwtFwd x).2 ++ (hufEnc (mtfEnc (bwtFwd x).1)).1.take m :=
  List.take_length_add_append (l₁ := u32le x.length ++ u32le (bwtFwd x).2) m

/-- Behind a header in range the Huffman stage's error is the decoder's (44_container.md R244). -/
theorem decompress_error_of_hufDec {maxN cap : Nat} {x h : List Byte} {e : ErrCode} (hlimit : maxN ≤ 2 ^ 32 - 2)
    (hmax : x.length ≤ maxN) (hcap : x.length ≤ cap) (herr : hufDec h (mtfEnc (bwtFwd x).1).length = .error e) :
    decompress maxN (u32le x.length ++ u32le (bwtFwd x).2 ++ h) cap = .error e := by
  rw [decompress_fields (by omega) hmax hcap (bwtFwd_index_le x), ← mtfEnc_bwtFwd_length, herr]
  rfl

/-! ### Results past the limits -/

/-- A result behind a limit on working memory or capacity is the result of what follows (60_exceptions.md R272). -/
theorem guarded_ok {α : Type} {need limit : Nat} {k : Except ErrCode α} {r : α}
    (h : (match requireAtMost need limit with | .error e => Except.error e | .ok _ => k) = .ok r) : k = .ok r := by
  split at h
  · cases h
  · exact h

theorem decompress_ok {maxN cap : Nat} {e : List Byte} {r : List Byte × Nat} (h : decompress maxN e cap = .ok r) :
    ∃ z, hufDec (e.drop 8) (envelopeSize e + 1) = .ok z ∧
      r = ((bwtInv (mtfDec z.1) (envelopeIndex e)).1.take (envelopeSize e), envelopeIndex e) := by
  rw [decompress] at h
  split at h
  next => cases h
  next =>
    have hheader := guarded_ok (guarded_ok h)
    split at hheader
    next => cases hheader
    next =>
      split at hheader
      next => cases hheader
      next z hz => exact ⟨z, hz, (Except.ok.inj hheader).symm⟩

end Sys2Proof.Machine
end

section
/-! SUPPORT. Encodings of another length: what a shorter source gives a longer one gives too, so a source cut short runs
out of bits or leaves a length that is refused (43_bitstream.md R204, R209, R211). -/

namespace Sys2Proof.Machine

open Sys2Proof

/-! ### Reading from a longer source -/

/-- The reader of the source with more bytes after it. -/
def withMore (rest : List Byte) (r : BitReader) : BitReader := { r with data := r.data ++ rest }

theorem readBit_withMore {r r1 : BitReader} {b : Bool} (rest : List Byte) (h : readBit r = .ok (b, r1)) :
    readBit (withMore rest r) = .ok (b, withMore rest r1) := by
  rw [readBit] at h
  split at h
  case isTrue hpos =>
    cases h
    have hmore : r.pos < 8 * (r.data ++ rest).length := by
      rw [List.length_append]
      omega
    rw [readBit, withMore, if_pos hmore, streamBit_append_left hpos, withMore]
  case isFalse => cases h

theorem readNumber_withMore {k v n : Nat} {r r1 : BitReader} (rest : List Byte) (h : readNumber k v r = .ok (n, r1)) :
    readNumber k v (withMore rest r) = .ok (n, withMore rest r1) := by
  fun_induction readNumber k v r with
  | case1 =>
    cases h
    rfl
  | case2 => cases h
  | case3 k v r br hbit ih => simp only [readNumber, readBit_withMore rest hbit, ih h]

theorem deserNode_withMore {k j : Nat} {r r1 : BitReader} {seen seen1 : List Byte} {t : Tree} (rest : List Byte)
    (hkj : k ≤ j) (h : deserNode k r seen = .ok (t, r1, seen1)) :
    deserNode j (withMore rest r) seen = .ok (t, withMore rest r1, seen1) := by
  fun_induction deserNode k r seen generalizing j t r1 seen1 with
  | case1 => cases h
  | case2 => cases h
  | case3 => cases h
  | case4 => cases h
  | case5 k r seen r1 hbit n r2 hnum hfresh =>
    cases h
    obtain ⟨j, rfl⟩ := Nat.exists_eq_add_one.2 (Nat.zero_lt_of_lt hkj)
    simp only [deserNode, readBit_withMore rest hbit, readNumber_withMore rest hnum, if_neg hfresh]
  | case6 => cases h
  | case7 => cases h
  | case8 k r seen r1 hbit l r2 seen2 hl rt r3 seen3 hr ihl ihr =>
    cases h
    obtain ⟨j, rfl⟩ := Nat.exists_eq_add_one.2 (Nat.zero_lt_of_lt hkj)
    have hkj := Nat.le_of_succ_le_succ hkj
    exact deserNode_node (readBit_withMore rest hbit) (ihl hkj hl) (ihr hkj hr)

theorem deser_withMore {r r1 : BitReader} {t : Tree} (rest : List Byte) (h : deser r = .ok (t, r1)) :
    deser (withMore rest r) = .ok (t, withMore rest r1) := by
  rw [deser] at h
  split at h
  next => cases h
  next t r2 seen hnode =>
    cases h
    have hfuel : 8 * r.data.length + 1 ≤ 8 * (withMore rest r).data.length + 1 := by
      rw [withMore, List.length_append]
      omega
    simp only [deser, deserNode_withMore rest hfuel hnode]
    rfl

theorem decodeSymbol_withMore {t : Tree} {r r1 : BitReader} {v : Byte} (rest : List Byte)
    (h : decodeSymbol t r = .ok (v, r1)) : decodeSymbol t (withMore rest r) = .ok (v, withMore rest r1) := by
  fun_induction decodeSymbol t r with
  | case1 =>
    cases h
    rfl
  | case2 => cases h
  | case3 l rt r r2 hbit ih => simp only [decodeSymbol, readBit_withMore rest hbit, ih h]
  | case4 l rt r r2 hbit ih => simp only [decodeSymbol, readBit_withMore rest hbit, ih h]

theorem decodeNext_eos {t : Tree} {r r1 : BitReader} {v : Byte} (h : decodeNext t r = .ok (v, r1)) :
    r1.eos = r.eos := by
  cases t with
  | leaf w =>
    rw [decodeNext, decodeOneLeaf] at h
    split at h
    next => cases h
    next => cases h
    next r2 hbit =>
      cases h
      exact readBit_eos hbit
  | node lt rt => exact decodeSymbol_eos h

/-- A symbol that the longer source gives is read from the shorter one too, unless that runs out of bits. -/
theorem decodeNext_of_withMore {t : Tree} {r r1 : BitReader} {v : Byte} {rest : List Byte}
    (h : decodeNext t (withMore rest r) = .ok (v, r1)) :
    decodeNext t r = .error r.eos ∨ ∃ r2, decodeNext t r = .ok (v, r2) ∧ r1 = withMore rest r2 := by
  cases t with
  | leaf w =>
    cases hbit : readBit r with
    | error e => exact .inl (by simp only [decodeNext, decodeOneLeaf, hbit, readBit_error hbit])
    | ok p =>
      obtain ⟨b, r2⟩ := p
      simp only [decodeNext, decodeOneLeaf, readBit_withMore rest hbit] at h
      cases b with
      | false =>
        cases h
        exact .inr ⟨r2, by simp only [decodeNext, decodeOneLeaf, hbit], rfl⟩
      | true => cases h
  | node lt rt =>
    cases hr : decodeSymbol (.node lt rt) r with
    | error e => exact .inl (hr.trans (congrArg _ (decodeSymbol_error hr)))
    | ok p =>
      cases (decodeSymbol_withMore rest hr).symm.trans h
      exact .inr ⟨p.2, hr, rfl⟩

/-- Symbols that the longer source gives are read from the shorter one too, unless that runs out of bits. -/
theorem unpack_of_withMore {t : Tree} {count : Nat} {r r1 : BitReader} {out rest : List Byte}
    (h : unpack t count (withMore rest r) = .ok (out, r1)) :
    unpack t count r = .error r.eos ∨ ∃ r2, unpack t count r = .ok (out, r2) ∧ r1 = withMore rest r2 := by
  induction count generalizing r out r1 with
  | zero =>
    cases h
    exact .inr ⟨r, rfl, rfl⟩
  | succ n ih =>
    rw [unpack] at h
    split at h
    next => cases h
    next v r2 hnext =>
      split at h
      next => cases h
      next out1 r3 hrest =>
        cases h
        rcases decodeNext_of_withMore hnext with hend | ⟨r4, hfirst, rfl⟩
        · exact .inl (by simp only [unpack, hend])
        · rcases ih hrest with hend | ⟨r5, hothers, rfl⟩
          · exact .inl (by simp only [unpack, hfirst, hend, decodeNext_eos hfirst])
          · exact .inr ⟨r5, unpack_succ hfirst hothers, rfl⟩

/-! ### Encodings of another length -/

variable {z : List Byte} {t : Tree}

theorem build_hist_of_ne_nil (hz : z ≠ []) : ∃ t, build (hist z) = some t :=
  Option.ne_none_iff_exists'.1 (mt build_hist_eq_none_iff.1 hz)

/-- After a tree's bytes the payload decides (43_bitstream.md R211). -/
theorem hufDec_treeBytes {count : Nat} (hcount : count ≠ 0) (ht : (treeSymbols t).Nodup) (p : List Byte) :
    hufDec (treeBytes (some t) ++ p) count =
      (unpack t count (newReader p .sizeMismatch)).bind fun u =>
        if p.length ≠ ceil8 u.2.pos then .error .sizeMismatch else .ok (u.1, (treeBytes (some t)).length) := by
  obtain ⟨r, hdeser, hbytes⟩ := deser_treeBytes p .corruptTree ht
  rw [hufDec, if_neg hcount]
  simp only [hdeser, hbytes, List.drop_left]
  cases unpack t count (newReader p .sizeMismatch) <;> rfl

theorem deser_readerBytes_le {d : List Byte} {e : ErrCode} {r : BitReader} (h : deser (newReader d e) = .ok (t, r)) :
    readerBytes r ≤ d.length := by
  obtain ⟨-, n, rfl, hle⟩ := deser_ok h
  exact (readerBytes_alignReader _).trans_le (ceil8_le_of_le hle)

/-- The payload of an encoding is read to the end of its code bits, whatever follows (43_bitstream.md R206, R207). -/
theorem unpack_pack (hbuild : build (hist z) = some t) (rest : List Byte) :
    ∃ r, unpack t z.length (newReader (pack z (codes (some t)) ++ rest) .sizeMismatch) = .ok (z, r) ∧
      ceil8 r.pos = (pack z (codes (some t))).length := by
  refine ⟨_, unpack_payloadBits (fun _ => (mem_treeSymbols_of_build hbuild).2) (packBits_prefix_bitsAhead _ rest _), ?_⟩
  rw [advance, newReader, Nat.zero_add, pack, packBits_length]

theorem hufDec_hufEnc_take_tree (hz : z ≠ []) {k : Nat} (hk : k < (hufEnc z).2) :
    hufDec ((hufEnc z).1.take k) z.length = .error .corruptTree := by
  obtain ⟨t, hbuild⟩ := build_hist_of_ne_nil hz
  obtain ⟨r, hdeser, hbytes⟩ := deser_treeBytes (pack z (codes (some t))) .corruptTree
    (treeSymbols_nodup_of_build hbuild)
  rw [hufEnc_of_build hbuild] at hk ⊢
  rw [hufDec, if_neg (mt List.length_eq_zero_iff.1 hz)]
  cases hcut : deser (newReader ((treeBytes (some t) ++ pack z (codes (some t))).take k) .corruptTree) with
  | error e => simp only [deser_error hcut rfl]
  | ok p =>
    have hle := deser_readerBytes_le hcut
    have hmore := deser_withMore ((treeBytes (some t) ++ pack z (codes (some t))).drop k) hcut
    simp only [withMore, newReader, List.take_append_drop] at hmore
    cases hmore.symm.trans hdeser
    exact absurd ((hbytes.ge.trans hle).trans (List.length_take_le _ _)) hk.not_ge

theorem hufDec_hufEnc_take_payload (hz : z ≠ []) {k : Nat} (hk : (hufEnc z).2 ≤ k) (hlt : k < (hufEnc z).1.length) :
    hufDec ((hufEnc z).1.take k) z.length = .error .sizeMismatch := by
  obtain ⟨t, hbuild⟩ := build_hist_of_ne_nil hz
  rw [hufEnc_of_build hbuild] at hk hlt ⊢
  obtain ⟨m, rfl⟩ := Nat.exists_eq_add_of_le hk
  rw [List.length_append] at hlt
  have hm := Nat.lt_of_add_lt_add_left hlt
  obtain ⟨r, hfull, hpos⟩ := unpack_pack hbuild []
  rw [List.append_nil, ← List.take_append_drop m (pack z _)] at hfull
  rw [List.take_length_add_append, hufDec_treeBytes (mt List.length_eq_zero_iff.1 hz)
    (treeSymbols_nodup_of_build hbuild)]
  rcases unpack_of_withMore (r := newReader ((pack z (codes (some t))).take m) .sizeMismatch) hfull with
    hend | ⟨r1, hcut, rfl⟩
  · rw [hend]
    rfl
  · rw [withMore] at hpos
    rw [hcut, Except.bind, hpos, List.length_take_of_le hm.le, if_pos hm.ne]

theorem hufDec_hufEnc_append (hz : z ≠ []) {rest : List Byte} (hrest : rest ≠ []) :
    hufDec ((hufEnc z).1 ++ rest) z.length = .error .sizeMismatch := by
  obtain ⟨t, hbuild⟩ := build_hist_of_ne_nil hz
  obtain ⟨r, hunpack, hpos⟩ := unpack_pack hbuild rest
  rw [hufEnc_of_build hbuild, List.append_assoc, hufDec_treeBytes (mt List.length_eq_zero_iff.1 hz)
    (treeSymbols_nodup_of_build hbuild), hunpack, Except.bind, hpos, if_pos]
  simpa using hrest

end Sys2Proof.Machine
end

section
/-! SUPPORT. What a command that ends in `DONE` leaves to read (10_state.md R32). -/

namespace Sys2Proof.Machine

open Sys2Proof

/-- The destination region's first `RLEN` bytes. -/
def resultBytes (t : State) : List Byte := memRead t.mem t.latched.dst.toNat t.rlen.toNat

theorem bwtFwd_sourceBytes_index_lt (s : State) : (bwtFwd (sourceBytes s)).2 < 2 ^ 32 := by
  have hle := bwtFwd_index_le (sourceBytes s)
  rw [sourceBytes_length] at hle
  exact hle.trans_lt s.latched.len.isLt

theorem toNat_ofNat_bwtFwd_index (s : State) :
    (BitVec.ofNat 32 (bwtFwd (sourceBytes s)).2).toNat = (bwtFwd (sourceBytes s)).2 := by
  rw [BitVec.toNat_ofNat, Nat.mod_eq_of_lt (bwtFwd_sourceBytes_index_lt s)]

section
variable {i : Instr} {s t : State}

/-- A command that ends in `DONE` has stored what its body gave. -/
theorem exec_done (h : exec i s = .next t) (hdone : t.status.state = .done) :
    ∃ r, bodyOf i s.cfg (sourceBytes s) s.latched.len.toNat s.latched.cap.toNat s.latched.aux.toNat = .ok r ∧
      resultBytes t = r.1 ∧ t.raux = BitVec.ofNat 32 r.2 := by
  rcases exec_next_cases h with ⟨out, raux, -, hlen, hexec, rfl⟩ | ⟨e, -, rfl⟩
  · obtain ⟨-, hbody, -⟩ := execBody_ok hexec
    refine ⟨(out, raux), hbody, ?_, rfl⟩
    rw [resultBytes, commit_rlen_toNat hlen, commit_latched, commit_mem, memRead_memWrite]
  · cases hdone

theorem exec_bwtf_done (h : exec .bwtf s = .next t) (hdone : t.status.state = .done) :
    resultBytes t = (bwtFwd (sourceBytes s)).1 ∧ t.raux.toNat = (bwtFwd (sourceBytes s)).2 := by
  obtain ⟨r, hbody, hout, hraux⟩ := exec_done h hdone
  cases guarded_ok (guarded_ok hbody)
  exact ⟨hout, (congrArg BitVec.toNat hraux).trans (toNat_ofNat_bwtFwd_index s)⟩

theorem exec_mtfe_done (h : exec .mtfe s = .next t) (hdone : t.status.state = .done) :
    resultBytes t = mtfEnc (sourceBytes s) := by
  obtain ⟨r, hbody, hout, -⟩ := exec_done h hdone
  cases guarded_ok (guarded_ok hbody)
  exact hout

theorem exec_hufe_done (h : exec .hufe s = .next t) (hdone : t.status.state = .done) :
    resultBytes t = (hufEnc (sourceBytes s)).1 := by
  obtain ⟨r, hbody, hout, -⟩ := exec_done h hdone
  cases guarded_ok (guarded_ok hbody)
  exact hout

theorem exec_comp_done (h : exec .comp s = .next t) (hdone : t.status.state = .done) :
    resultBytes t = (compress (sourceBytes s)).1 ∧ t.raux.toNat = (bwtFwd (sourceBytes s)).2 := by
  obtain ⟨r, hbody, hout, hraux⟩ := exec_done h hdone
  cases guarded_ok (guarded_ok hbody)
  exact ⟨hout, (congrArg BitVec.toNat hraux).trans (toNat_ofNat_bwtFwd_index s)⟩

theorem exec_hufd_done (h : exec .hufd s = .next t) (hdone : t.status.state = .done) :
    ∃ z, hufDec (sourceBytes s) s.latched.aux.toNat = .ok z ∧ resultBytes t = z.1 := by
  obtain ⟨r, hbody, hout, -⟩ := exec_done h hdone
  exact ⟨r, guarded_ok (guarded_ok hbody), hout⟩

theorem exec_mtfd_done (h : exec .mtfd s = .next t) (hdone : t.status.state = .done) :
    resultBytes t = mtfDec (sourceBytes s) := by
  obtain ⟨r, hbody, hout, -⟩ := exec_done h hdone
  cases guarded_ok (guarded_ok hbody)
  exact hout

theorem exec_bwti_done (h : exec .bwti s = .next t) (hdone : t.status.state = .done) :
    resultBytes t = (bwtInv (sourceBytes s) s.latched.aux.toNat).1 := by
  obtain ⟨r, hbody, hout, -⟩ := exec_done h hdone
  have hindex := guarded_ok (guarded_ok hbody)
  split at hindex
  · cases hindex
  · cases hindex
    exact hout

theorem exec_decomp_done (h : exec .decomp s = .next t) (hdone : t.status.state = .done) :
    ∃ z, hufDec ((sourceBytes s).drop 8) (envelopeSize (sourceBytes s) + 1) = .ok z ∧
      resultBytes t =
        (bwtInv (mtfDec z.1) (envelopeIndex (sourceBytes s))).1.take (envelopeSize (sourceBytes s)) := by
  obtain ⟨r, hbody, hout, -⟩ := exec_done h hdone
  obtain ⟨z, hdec, rfl⟩ := decompress_ok hbody
  exact ⟨z, hdec, hout⟩

end

end Sys2Proof.Machine
end

section
/-! The statements about the container (44_container.md), settled. -/

namespace Sys2Proof.Machine

open Sys2Proof

/-- Settles O58: the header reads back, and each stage behind it undoes its own. -/
theorem decompressUndoesCompress : Obligations.DecompressUndoesCompress := by
  intro maxN cap x hlimit hcap
  refine ⟨fun hmax => ?_, fun hmax => ?_⟩
  · rw [compress, decompress_fields (by omega) hmax hcap (bwtFwd_index_le x), ← mtfEnc_bwtFwd_length,
      huffmanDecodeUndoesEncode (mtfEnc (bwtFwd x).1), Except.map, (mtfDecodeAndEncodeAreInverse.1 _).1,
      inverseTransformUndoesForward, List.take_left]
  · have hsize := envelopeSize_u32le (show x.length < 2 ^ 32 by omega) (hufEnc x).1
    rw [hCompress, hDecompress_eq (by simp) (by rwa [hsize]) (by rwa [hsize]), hsize,
      List.drop_left' (u32le_length _), huffmanDecodeUndoesEncode x]

/-- Settles O57: the four quotients are the digits of the value in base 256. -/
theorem envelopeIntegersAreLittleEndian : Obligations.EnvelopeIntegersAreLittleEndian :=
  ⟨fun v hv => ⟨le32_u32le hv, u32le_length v, fun _ => u32le_getD_toNat⟩, fun _ => u32le_le32⟩

/-- Settles O22: the body passes both its limits, and the index is at most the length. -/
theorem compCompletesWithTheEnvelope : Obligations.CompCompletesWithTheEnvelope := by
  intro s hreg hmax hcap
  refine completesWith_of_body hreg ?_ hcap (bwtFwd_sourceBytes_index_lt s)
  simp only [bodyOf, compBody, requireAtMost_ok hmax, requireAtMost_ok hcap]
  rfl

/-- Settles O24: the body passes both its limits, the second with the size field counted. -/
theorem hcompCompletesWithTheEnvelope : Obligations.HcompCompletesWithTheEnvelope := by
  intro s hreg hmax hcap
  have hraux := hufEnc_snd_le (sourceBytes s)
  have hcapLt := s.latched.cap.isLt
  have hfits : (hCompress (sourceBytes s)).1.length ≤ s.latched.cap.toNat := by
    rw [hCompress, List.length_append, u32le_length]
    omega
  rw [← sourceBytes_length s]
  refine completesWith_of_body hreg ?_ hfits (by omega)
  simp only [bodyOf, hcompBody, requireAtMost_ok hmax, requireAtMost_ok hfits]
  rfl

/-- Settles O23: past the header the body is the Huffman decoder and two stages that keep the length. -/
theorem decompCompletesWithTheOriginalBytes : Obligations.DecompCompletesWithTheOriginalBytes := by
  intro s hreg hlen hmax hcap hindex
  have hbody := decompress_eq (by rwa [sourceBytes_length]) hmax hcap hindex
  refine ⟨fun z tlen hdec => ?_, fun e hdec => failsWith_of_body hreg (hbody.trans (by rw [hdec]; rfl))⟩
  obtain ⟨hz, -⟩ := hufDec_ok hdec
  have hout : ((bwtInv (mtfDec z) (envelopeIndex (sourceBytes s))).1.take (envelopeSize (sourceBytes s))).length =
      envelopeSize (sourceBytes s) := by
    rw [List.length_take, bwtInv_length, mtfDec_length, hz, Nat.min_eq_left (Nat.le_succ _)]
  rw [hdec] at hbody
  exact ⟨completesWith_of_body hreg hbody (hout.trans_le hcap) ((hindex.trans hcap).trans_lt s.latched.cap.isLt), hout⟩

/-- Settles O25: past the header the body is the Huffman decoder. -/
theorem hdecompCompletesWithTheOriginalBytes : Obligations.HdecompCompletesWithTheOriginalBytes := by
  intro s hreg hlen hmax hcap
  have hbody := hDecompress_eq (by rwa [sourceBytes_length]) hmax hcap
  refine ⟨fun out tlen hdec => ?_, fun e hdec => failsWith_of_body hreg (hbody.trans hdec)⟩
  obtain ⟨hout, htlen⟩ := hufDec_ok hdec
  rw [List.length_drop, sourceBytes_length] at htlen
  have hlenLt := s.latched.len.isLt
  exact ⟨completesWith_of_body hreg (hbody.trans hdec) (hout.trans_le hcap) (by omega), hout⟩

/-- Settles O59: a cut behind the header is a cut of the Huffman stage's source, and so is a byte added. -/
theorem damagedLengthMakesDecompressFail : Obligations.DamagedLengthMakesDecompressFail := by
  intro maxN cap x k b hlimit hmax hcap
  dsimp only
  have hz : mtfEnc (bwtFwd x).1 ≠ [] := List.ne_nil_of_length_eq_add_one (mtfEnc_bwtFwd_length x)
  have hrest := fun {h e} => decompress_error_of_hufDec (h := h) (e := e) hlimit hmax hcap
  refine ⟨fun hk => if_pos ((List.length_take_le _ _).trans_lt hk), fun hk hlt => ?_, fun hk hlt => ?_, ?_⟩
  · obtain ⟨m, rfl⟩ := Nat.exists_eq_add_of_le hk
    rw [compress_take]
    exact hrest (hufDec_hufEnc_take_tree hz (Nat.lt_of_add_lt_add_left hlt))
  · obtain ⟨m, rfl⟩ := Nat.exists_eq_add_of_le ((Nat.le_add_right 8 _).trans hk)
    rw [compress_length] at hlt
    rw [compress_take]
    exact hrest (hufDec_hufEnc_take_payload hz (Nat.le_of_add_le_add_left hk) (Nat.lt_of_add_lt_add_left hlt))
  · rw [compress, List.append_assoc]
    exact hrest (hufDec_hufEnc_append hz (List.cons_ne_nil b []))

/-- Settles O60: each stage's result is put for the source of the next. -/
theorem compositeCommandsEqualTheStagesInARow : Obligations.CompositeCommandsEqualTheStagesInARow := by
  unfold Obligations.CompositeCommandsEqualTheStagesInARow
  intro result
  refine ⟨fun s1 s2 s3 s4 t1 t2 t3 t4 h1 hd1 hs2 h2 hd2 hs3 h3 hd3 hs4 h4 hd4 => ?_,
    fun s1 s2 s3 s4 t1 t2 t3 t4 h4 hd4 hs1 haux1 h1 hd1 hs2 h2 hd2 hs3 haux3 h3 hd3 => ?_⟩
  · obtain ⟨hbwtf, hindex⟩ := exec_bwtf_done h1 hd1
    obtain ⟨hcomp, hraux⟩ := exec_comp_done h4 hd4
    have hmtfe : sourceBytes s3 = mtfEnc (sourceBytes s2) := hs3.trans (exec_mtfe_done h2 hd2)
    have hhufe : result t3 = (hufEnc (sourceBytes s3)).1 := exec_hufe_done h3 hd3
    rw [hs4] at hraux
    refine ⟨hcomp.trans ?_, BitVec.eq_of_toNat_eq (hraux.trans hindex.symm)⟩
    rw [hhufe, hmtfe, hs2.trans hbwtf, hindex, ← sourceBytes_length s4, hs4, compress]
  · obtain ⟨z, hdec, hdecomp⟩ := exec_decomp_done h4 hd4
    obtain ⟨z1, hdec1, hhufd⟩ := exec_hufd_done h1 hd1
    rw [hs1, haux1, hdec] at hdec1
    cases hdec1
    have hmtfd : sourceBytes s3 = mtfDec (sourceBytes s2) := hs3.trans (exec_mtfd_done h2 hd2)
    have hbwti := exec_bwti_done h3 hd3
    obtain ⟨hz, -⟩ := hufDec_ok hdec
    rw [hmtfd, hs2.trans hhufd, haux3] at hbwti
    change resultBytes t4 = (resultBytes t3).dropLast
    rw [hdecomp, hbwti, List.dropLast_eq_take, bwtInv_length, mtfDec_length, hz, Nat.add_sub_cancel]

end Sys2Proof.Machine
end

section
/-! SUPPORT. What the decoding stages can raise (60_exceptions.md R273 to R275). -/

namespace Sys2Proof.Machine

open Sys2Proof

/-- The errors that speak of the source bytes and of nothing else (60_exceptions.md R273 to R275). -/
def streamErrors : List ErrCode := [.corruptTree, .corruptStream, .sizeMismatch]

theorem decodeNext_error {t : Tree} {r : BitReader} {e : ErrCode} (h : decodeNext t r = .error e) :
    e = r.eos ∨ e = .corruptStream := by
  cases t with
  | leaf v =>
    rw [decodeNext, decodeOneLeaf] at h
    split at h
    next e' hbit =>
      cases h
      exact .inl (readBit_error hbit)
    next =>
      cases h
      exact .inr rfl
    next => cases h
  | node l rt => exact .inl (decodeSymbol_error h)

/-- Whatever the root, the unpacker raises the reader's error or the one-leaf tree's (43_bitstream.md R207, R208). -/
theorem unpack_error {t : Tree} {count : Nat} {r : BitReader} {e : ErrCode} (h : unpack t count r = .error e) :
    e = r.eos ∨ e = .corruptStream := by
  fun_induction unpack t count r with
  | case1 => cases h
  | case2 n r e' hnext =>
    cases h
    exact decodeNext_error hnext
  | case3 n r v r1 hnext e' hrest ih =>
    cases h
    rw [← decodeNext_eos hnext]
    exact ih hrest
  | case4 => cases h

theorem hufDec_error {src : List Byte} {count : Nat} {e : ErrCode} (h : hufDec src count = .error e) :
    e ∈ streamErrors := by
  rw [hufDec] at h
  split at h
  next =>
    split at h
    next =>
      cases h
      decide
    next => cases h
  next =>
    split at h
    next e' hdeser =>
      cases h
      rw [deser_error hdeser rfl]
      decide
    next t rt hdeser =>
      split at h
      next e' hunpack =>
        cases h
        rcases unpack_error hunpack with rfl | rfl
        · exact (by decide : ErrCode.sizeMismatch ∈ streamErrors)
        · decide
      next =>
        split at h
        next =>
          cases h
          decide
        next => cases h

end Sys2Proof.Machine
end

section
/-! SUPPORT. `Exec` of a command as three equations, in the order of 60_exceptions.md R279: the region check, the limits
of R272, and what the command does past them. -/

namespace Sys2Proof.Machine

open Sys2Proof

/-! ### A body behind its two limits -/

section
variable {α : Type}

/-- The shape of every body: a limit on working memory, a limit on the capacity, and what comes past them. -/
def limited (need limit need' limit' : Nat) (k : Except ErrCode α) : Except ErrCode α :=
  match requireAtMost need limit with
  | .error e => .error e
  | .ok _ =>
    match requireAtMost need' limit' with
    | .error e => .error e
    | .ok _ => k

variable {need limit need' limit' : Nat} {k : Except ErrCode α}

theorem limited_of_exceeded (h : need > limit ∨ need' > limit') :
    limited need limit need' limit' k = .error .allocation := by
  by_cases hneed : need ≤ limit
  · simp only [limited, requireAtMost_ok hneed, requireAtMost_error (h.resolve_left hneed.not_gt)]
  · simp only [limited, requireAtMost_error (Nat.lt_of_not_le hneed)]

theorem limited_of_not_exceeded (h : ¬ (need > limit ∨ need' > limit')) : limited need limit need' limit' k = k := by
  obtain ⟨hneed, hneed'⟩ := not_or.1 h
  simp only [limited, requireAtMost_ok (Nat.le_of_not_lt hneed), requireAtMost_ok (Nat.le_of_not_lt hneed')]

end

variable {i : Instr} {s : State} {e : ErrCode} {r : List Byte × Nat}

/-- A limit exceeded is `AllocationError`, whatever the command would do (60_exceptions.md R272). -/
theorem body_of_allocationCause (h : AllocationCause i s) :
    bodyOf i s.cfg (sourceBytes s) s.latched.len.toNat s.latched.cap.toNat s.latched.aux.toNat = .error .allocation := by
  cases i with
  | decomp | hdecomp =>
    obtain ⟨hheader, hlimit⟩ := h
    rw [← sourceBytes_length] at hheader
    exact (if_neg hheader.not_gt).trans (limited_of_exceeded hlimit)
  | _ => exact limited_of_exceeded h

/-- What a command does within its limits: its result, or an error of the source bytes or of the index. -/
def withinLimits (i : Instr) (s : State) : Except ErrCode (List Byte × Nat) :=
  let x := sourceBytes s
  let len := s.latched.len.toNat
  let aux := s.latched.aux.toNat
  match i with
  | .bwtf => .ok (bwtFwd x)
  | .bwti => if len = 0 ∨ len ≤ aux then .error .corruptStream else .ok (bwtInv x aux)
  | .mtfe => .ok (mtfEnc x, 0)
  | .mtfd => .ok (mtfDec x, 0)
  | .hufe => .ok (hufEnc x)
  | .hufd => hufDec x aux
  | .comp => .ok (compress x)
  | .decomp =>
    if len < 8 then .error .corruptStream
    else if envelopeSize x < envelopeIndex x then .error .corruptStream
    else (hufDec (x.drop 8) (envelopeSize x + 1)).map fun z =>
      ((bwtInv (mtfDec z.1) (envelopeIndex x)).1.take (envelopeSize x), envelopeIndex x)
  | .hcomp => .ok (hCompress x)
  | .hdecomp => if len < 4 then .error .corruptStream else hufDec (x.drop 4) (envelopeSize x)

theorem body_of_not_allocationCause (h : ¬ AllocationCause i s) :
    bodyOf i s.cfg (sourceBytes s) s.latched.len.toNat s.latched.cap.toNat s.latched.aux.toNat = withinLimits i s := by
  cases i with
  | decomp =>
    have hlength := sourceBytes_length s
    rw [withinLimits, ← hlength]
    by_cases hheader : (sourceBytes s).length < 8
    · exact (if_pos hheader).trans (if_pos hheader).symm
    · have hlimits := not_and.1 h (hlength ▸ Nat.le_of_not_lt hheader)
      refine (if_neg hheader).trans ((limited_of_not_exceeded hlimits).trans ?_)
      rw [if_neg hheader, envelopeSize, envelopeIndex]
      cases hufDec ((sourceBytes s).drop 8) (le32 ((sourceBytes s).take 4) + 1) <;> rfl
  | hdecomp =>
    have hlength := sourceBytes_length s
    rw [withinLimits, ← hlength]
    by_cases hheader : (sourceBytes s).length < 4
    · exact (if_pos hheader).trans (if_pos hheader).symm
    · have hlimits := not_and.1 h (hlength ▸ Nat.le_of_not_lt hheader)
      exact (if_neg hheader).trans ((limited_of_not_exceeded hlimits).trans (if_neg hheader).symm)
  | _ => exact limited_of_not_exceeded h

theorem hufDec_error_possible {src : List Byte} {count : Nat} (hi : i = .hufd ∨ i = .decomp ∨ i = .hdecomp)
    (h : hufDec src count = .error e) : e ∈ streamErrors ∧ e.code ∈ possibleErrors i := by
  have hcodes : ∀ e ∈ streamErrors, e.code ∈ possibleErrors i := by rcases hi with rfl | rfl | rfl <;> decide
  exact ⟨hufDec_error h, hcodes e (hufDec_error h)⟩

theorem eq_error_of_map_eq_error {ε α β : Type} {x : Except ε α} {f : α → β} {err : ε} (h : x.map f = .error err) :
    x = .error err := by
  cases x with
  | error err' =>
    cases h
    rfl
  | ok a => cases h

/-- Within the limits only the source bytes and the index can be at fault, in the commands that 60_exceptions.md R278
names. -/
theorem withinLimits_error (h : withinLimits i s = .error e) : e ∈ streamErrors ∧ e.code ∈ possibleErrors i := by
  cases i with
  | bwti =>
    rw [withinLimits] at h
    split at h
    · cases h
      decide
    · cases h
  | hufd => exact hufDec_error_possible (by decide) h
  | decomp =>
    rw [withinLimits] at h
    split at h
    · cases h
      decide
    · split at h
      · cases h
        decide
      · exact hufDec_error_possible (by decide) (eq_error_of_map_eq_error h)
  | hdecomp =>
    rw [withinLimits] at h
    split at h
    · cases h
      decide
    · exact hufDec_error_possible (by decide) h
  | _ => cases h

theorem withinLimits_fits (hcause : ¬ AllocationCause i s) (h : withinLimits i s = .ok r) :
    r.1.length ≤ s.latched.cap.toNat := by
  cases i with
  | bwti =>
    obtain ⟨-, hcap⟩ := not_or.1 hcause
    rw [withinLimits] at h
    split at h
    · cases h
    · cases h
      simpa [bwtInv_length] using hcap
  | hufd =>
    obtain ⟨-, hcap⟩ := not_or.1 hcause
    exact (hufDec_ok h).1.trans_le (Nat.le_of_not_lt hcap)
  | decomp =>
    obtain ⟨z, -, rfl⟩ := decompress_ok ((body_of_not_allocationCause hcause).trans h)
    rw [withinLimits] at h
    split at h
    · cases h
    · next hheader =>
      obtain ⟨-, hcap⟩ := not_or.1 (not_and.1 hcause (Nat.le_of_not_lt hheader))
      exact (List.length_take_le _ _).trans (Nat.le_of_not_lt hcap)
  | hdecomp =>
    rw [withinLimits] at h
    split at h
    · cases h
    · next hheader =>
      obtain ⟨-, hcap⟩ := not_or.1 (not_and.1 hcause (Nat.le_of_not_lt hheader))
      exact (hufDec_ok h).1.trans_le (Nat.le_of_not_lt hcap)
  | _ =>
    obtain ⟨-, hcap⟩ := not_or.1 hcause
    cases h
    simpa using hcap

/-! ### `Exec` -/

theorem execBody_of_not_regionsOk (hreg : ¬ RegionsOk s) (body : Body) : execBody body s = .error .operand := by
  cases hcheck : checkRegions s.cfg s.latched with
  | ok u => exact absurd ((checkRegions_ok_iff s).1 hcheck) hreg
  | error e =>
    rw [execBody, hcheck]
    exact congrArg _ (checkRegions_error hcheck)

theorem execBody_of_allocationCause (hreg : RegionsOk s) (hcause : AllocationCause i s) :
    execBody (bodyOf i) s = .error .allocation := by
  rw [execBody, (checkRegions_ok_iff s).2 hreg, body_of_allocationCause hcause]

/-- Within its limits a command's result fits its capacity, so the last test of `Exec` never fails. -/
theorem execBody_of_not_allocationCause (hreg : RegionsOk s) (hcause : ¬ AllocationCause i s) :
    execBody (bodyOf i) s = withinLimits i s := by
  rw [execBody, (checkRegions_ok_iff s).2 hreg, body_of_not_allocationCause hcause]
  cases hresult : withinLimits i s with
  | error e => rfl
  | ok r => exact if_neg (withinLimits_fits hcause hresult).not_gt

/-- Why `Exec` of a command raises an error: bad regions, a limit, or what lies past both (60_exceptions.md R279). -/
theorem execBody_error_cases (h : execBody (bodyOf i) s = .error e) :
    (¬ RegionsOk s ∧ e = .operand) ∨ (AllocationCause i s ∧ e = .allocation) ∨
      (e ∈ streamErrors ∧ e.code ∈ possibleErrors i) := by
  by_cases hreg : RegionsOk s
  · by_cases hcause : AllocationCause i s
    · rw [execBody_of_allocationCause hreg hcause] at h
      cases h
      exact .inr (.inl ⟨hcause, rfl⟩)
    · rw [execBody_of_not_allocationCause hreg hcause] at h
      exact .inr (.inr (withinLimits_error h))
  · rw [execBody_of_not_regionsOk hreg] at h
    cases h
    exact .inl ⟨hreg, rfl⟩

/-! ### Error entry -/

/-- Every command checks its regions and has a limit (60_exceptions.md R278). -/
theorem operand_allocation_possible (i : Instr) :
    ErrCode.operand.code ∈ possibleErrors i ∧ ErrCode.allocation.code ∈ possibleErrors i := by cases i <;> decide

theorem code_injective : Function.Injective ErrCode.code := by
  intro e e' h
  cases e <;> cases e' <;> simp [ErrCode.code] at h ⊢

theorem failsWith_iff : FailsWith i s e.code ↔ execBody (bodyOf i) s = .error e := by
  constructor
  · intro h
    rcases exec_next_cases h with ⟨out, raux, -, -, -, hcommit⟩ | ⟨e', he', hentry⟩
    · cases congrArg (fun t => t.status.state) hcommit
    · rw [he', code_injective (congrArg (fun t => t.status.err) hentry)]
  · intro h
    rw [FailsWith, exec_eq_complete, complete, h]
    rfl

/-- With the regions and the limits in order, the errors are those of the command itself. -/
theorem failsWith_iff_withinLimits (hreg : RegionsOk s) (hcause : ¬ AllocationCause i s) :
    FailsWith i s e.code ↔ withinLimits i s = .error e := by
  rw [failsWith_iff, execBody_of_not_allocationCause hreg hcause]

theorem exec_next_error {t : State} (h : exec i s = .next t) (herr : t.status.state = .error) :
    ∃ e, execBody (bodyOf i) s = .error e ∧ t = errorEntry e s := by
  rcases exec_next_cases h with ⟨out, raux, -, -, -, rfl⟩ | hentry
  · cases herr
  · exact hentry

/-- An illegal word has no body to run (60_exceptions.md R276). -/
theorem engineTurn_of_not_wordLegal (hb : s.busy = true) (hw : wordLegal s.latched.word = false) :
    engineTurn s = .next (errorEntry .illegalCommand s) := by
  rw [engineTurn, if_pos hb, decode_of_not_wordLegal hw]

end Sys2Proof.Machine
end

section
/-! The statements about the errors (60_exceptions.md), settled. -/

namespace Sys2Proof.Machine

open Sys2Proof

/-- Settles O14: each way the turn comes to the engine. -/
theorem illegalWordEndsInIllegalCommand : Obligations.IllegalWordEndsInIllegalCommand := by
  intro s hb hillegal
  have hbusy : s.busy = true := busy_iff.2 hb
  have hw := not_wordLegal_iff.2 hillegal
  refine ⟨fun hag => ?_, fun rest hag => ?_, fun rest hag => ?_⟩
  · exact (step_of_agenda_nil hag).trans (engineTurn_of_not_wordLegal hbusy hw)
  · exact (step_of_agenda_engine hag).trans (engineTurn_of_not_wordLegal (s := { s with agenda := rest }) hbusy hw)
  · exact (step_of_agenda_wait_busy hag hbusy).trans (engineTurn_of_not_wordLegal hbusy hw)

/-- Settles O15: the region check comes first, and nothing after it raises its error. -/
theorem operandErrorExactlyWhenTheRegionsAreBad : Obligations.OperandErrorExactlyWhenTheRegionsAreBad := by
  intro i s
  refine ⟨fun hreg => failsWith_iff.2 (execBody_of_not_regionsOk hreg (bodyOf i)), fun hreg hfails => ?_⟩
  rcases execBody_error_cases (failsWith_iff (e := .operand).1 hfails) with ⟨hbad, -⟩ | ⟨-, he⟩ | ⟨he, -⟩
  · exact hbad hreg
  · cases he
  · exact absurd he (by decide)

/-- Settles O26: the limits are the causes, and nothing before or after them raises their error. -/
theorem allocationErrorExactlyOnItsCauses : Obligations.AllocationErrorExactlyOnItsCauses := by
  intro i s hreg
  refine ⟨fun hfails => ?_, fun hcause => failsWith_iff.2 (execBody_of_allocationCause hreg hcause)⟩
  rcases execBody_error_cases (failsWith_iff (e := .allocation).1 hfails) with ⟨-, he⟩ | ⟨hcause, -⟩ | ⟨he, -⟩
  · cases he
  · exact hcause
  · exact absurd he (by decide)

/-- Settles O27: the limits hold, or are not reached for want of a header. -/
theorem corruptStreamFromHeaderOrIndex : Obligations.CorruptStreamFromHeaderOrIndex := by
  intro s hreg
  refine ⟨fun hlen => ?_, fun hlen => ?_, fun hlen hmax hcap hindex => ?_, fun hmax hcap => ?_⟩
  · have hcause : ¬ AllocationCause .decomp s := fun h => h.1.not_gt hlen
    exact (failsWith_iff_withinLimits hreg hcause).2 (if_pos hlen)
  · have hcause : ¬ AllocationCause .hdecomp s := fun h => h.1.not_gt hlen
    exact (failsWith_iff_withinLimits hreg hcause).2 (if_pos hlen)
  · have hcause : ¬ AllocationCause .decomp s := fun h => not_or.2 ⟨hmax.not_gt, hcap.not_gt⟩ h.2
    exact (failsWith_iff_withinLimits hreg hcause).2 ((if_neg hlen.not_gt).trans (if_pos hindex))
  · have hcause : ¬ AllocationCause .bwti s := not_or.2 ⟨hmax.not_gt, hcap.not_gt⟩
    refine (failsWith_iff_withinLimits (e := .corruptStream) hreg hcause).trans ⟨fun h => ?_, fun h => if_pos h⟩
    by_contra hok
    cases (if_neg hok).symm.trans h

/-- Settles O28: an error comes from the region check, a limit, or the decoding of the source. -/
theorem commandsReportOnlyTheirErrors : Obligations.CommandsReportOnlyTheirErrors := by
  intro i s t h herr
  obtain ⟨e, he, rfl⟩ := exec_next_error h herr
  rcases execBody_error_cases he with ⟨-, rfl⟩ | ⟨-, rfl⟩ | ⟨-, hcode⟩
  · exact (operand_allocation_possible i).1
  · exact (operand_allocation_possible i).2
  · exact hcode

/-- Settles O29: the next state is `errorEntry`. -/
theorem errorEntryChangesOnlyStatusAndResults : Obligations.ErrorEntryChangesOnlyStatusAndResults := by
  intro i s t h herr
  obtain ⟨e, -, rfl⟩ := exec_next_error h herr
  exact ⟨rfl, errCode_range e⟩

end Sys2Proof.Machine
end

section
/-! SUPPORT. What a turn does to the held regions, and how a turn takes a `BUSY` block towards completion
(70_reset_and_hazards.md R320, R331). -/

namespace Sys2Proof.Machine

open Sys2Proof

section
variable {s t : State}

/-! ### The held regions -/

theorem engineTurn_held (h : engineTurn s = .next t) : t.held = s.held := by
  rcases engineTurn_next_cases h with ⟨-, rfl⟩ | ⟨-, ⟨out, raux, -, -, -, rfl⟩ | ⟨e, rfl⟩⟩ <;> rfl

/-- A register write can add a command to `held`, and takes none away (10_state.md R31). -/
theorem held_subset_writeOffset (off v : Word) : s.held ⊆ (writeOffset off v s).held := by
  rcases writeOffset_cases off v s with ht | ⟨-, ht | ⟨r, ht⟩⟩ <;> simp [ht]

/-- A register read keeps `held`, or hands all of it back as a `STATUS` read that sees completion (20_memory.md R76). -/
theorem readRegister_held_cases (off : Word) (s : State) :
    s.held ⊆ (readRegister off s).held ∨
      off = Reg.status.offset ∧ (s.status.state = .done ∨ s.status.state = .error) := by
  rw [readRegister_eq]
  by_cases hback : off = Reg.status.offset ∧ (s.status.state = .done ∨ s.status.state = .error)
  · exact Or.inr hback
  · exact Or.inl (by simp [hback])

/-- A host action releases held regions only as a reset, or as a `STATUS` read that sees completion. -/
theorem hostTurn_held_cases {a : HostAction} (h : hostTurn a s = .next t) :
    s.held ⊆ t.held ∨ a = .reset ∨
      (s.status.state = .done ∨ s.status.state = .error) ∧ (a = .wait ∨ a = .regRead .word Reg.status.offset) := by
  cases a with
  | regRead size off =>
    obtain ⟨rfl, -, rfl⟩ := registerAccess_next h
    rcases readRegister_held_cases off s with hkeep | ⟨rfl, hcompleted⟩
    · exact Or.inl hkeep
    · exact Or.inr (Or.inr ⟨hcompleted, Or.inr rfl⟩)
  | regWrite size off v =>
    obtain ⟨-, -, rfl⟩ := registerAccess_next h
    exact Or.inl (held_subset_writeOffset off v)
  | memRead x =>
    obtain ⟨v, rfl⟩ := hostMemRead_next h
    exact Or.inl (List.Subset.refl _)
  | memWrite x b =>
    obtain ⟨-, rfl⟩ := hostMemWrite_next h
    exact Or.inl (List.Subset.refl _)
  | wait =>
    cases h
    rcases readRegister_held_cases Reg.status.offset s with hkeep | ⟨-, hcompleted⟩
    · exact Or.inl hkeep
    · exact Or.inr (Or.inr ⟨hcompleted, Or.inl rfl⟩)
  | reset => exact Or.inr (Or.inl rfl)

/-! ### Towards completion -/

/-- A `BUSY` engine that takes its turn completes (10_state.md R32). -/
theorem engineTurn_not_busy (hb : s.busy = true) (h : engineTurn s = .next t) : t.status.state ≠ .busy := by
  rcases engineTurn_next_cases h with ⟨hidle, -⟩ | ⟨-, ⟨out, raux, -, -, -, rfl⟩ | ⟨e, rfl⟩⟩
  · exact absurd hb (by simp [hidle])
  · simp
  · simp

theorem writeOffset_agenda (off v : Word) : (writeOffset off v s).agenda = s.agenda := by
  rcases writeOffset_cases off v s with ht | ⟨-, ht | ⟨r, ht⟩⟩ <;> simp [ht]

/-- A host action leaves the turns to come as they are (log 4). -/
theorem hostTurn_agenda {a : HostAction} (h : hostTurn a s = .next t) : t.agenda = s.agenda := by
  rcases hostTurn_next_cases h with ⟨off, rfl⟩ | ⟨off, v, rfl⟩ | ⟨v, rfl⟩ | ⟨x, b, -, rfl⟩ | rfl
  · rw [readRegister_eq]
  · exact writeOffset_agenda off v
  · rfl
  · rfl
  · rfl

/-- One turn of a `BUSY` block: it completes, it meets a forbidden host action, or it uses up one host action. -/
theorem step_busy_cases (hb : s.busy = true) :
    (∃ t, step s = .next t ∧ t.status.state ≠ .busy) ∨
      ∃ a rest, s.agenda = .host a :: rest ∧ (Forbidden s a ∨ ∃ t, step s = .next t ∧ t.agenda = rest) := by
  rcases step_cases s with ⟨hstep, -⟩ | ⟨rest, -, hstep⟩ | ⟨a, rest, hag, -, hstep⟩ <;> rw [hstep]
  · obtain ⟨t, ht⟩ := engineTurn_total s
    exact Or.inl ⟨t, ht, engineTurn_not_busy hb ht⟩
  · obtain ⟨t, ht⟩ := engineTurn_total { s with agenda := rest }
    exact Or.inl ⟨t, ht, engineTurn_not_busy (s := { s with agenda := rest }) hb ht⟩
  · refine Or.inr ⟨a, rest, hag, ?_⟩
    by_cases hf : Forbidden s a
    · exact Or.inl hf
    · rw [← forbidden_withAgenda (rest := rest), ← hostTurn_stops_iff] at hf
      push Not at hf
      obtain ⟨t, ht⟩ := hf
      exact Or.inr ⟨t, ht, hostTurn_agenda ht⟩

/-- A step that goes through starts a run one step longer. -/
theorem run_succ_of_step {M : Host.Core} {s t : M.State} (h : M.step s = .next t) (k : Nat) :
    M.run (k + 1) s = M.run k t := by rw [Host.Core.run, h]

end

end Sys2Proof.Machine
end

section
/-! The statements about reset and hazards (70_reset_and_hazards.md), settled. -/

namespace Sys2Proof.Machine

open Sys2Proof

/-- Settles O12: the engine's turn keeps `held`, and so does every host action but a reset and a `STATUS` read that sees
completion. -/
theorem regionsStayHeldUntilCompletionIsSeen : Obligations.RegionsStayHeldUntilCompletionIsSeen := by
  intro s t h
  rcases step_cases s with ⟨hstep, -⟩ | ⟨rest, -, hstep⟩ | ⟨a, rest, hag, -, hstep⟩ <;> rw [hstep] at h
  · exact Or.inl fun l hl => (engineTurn_held h).symm ▸ hl
  · exact Or.inl fun l hl => (engineTurn_held h).symm ▸ hl
  · rcases hostTurn_held_cases h with hkeep | rfl | ⟨hcompleted, rfl | rfl⟩
    · exact Or.inl hkeep
    · exact Or.inr (Or.inl ⟨rest, hag⟩)
    · exact Or.inr (Or.inr ⟨hcompleted, rest, Or.inl hag⟩)
    · exact Or.inr (Or.inr ⟨hcompleted, rest, Or.inr hag⟩)

/-- Settles O31, by induction on the agenda: a step that leaves the block `BUSY` has used up a turn. -/
theorem busyBlockReachesCompletion : Obligations.BusyBlockReachesCompletion := by
  intro s hbusy
  induction hlen : s.agenda.length generalizing s with
  | zero =>
    rcases step_busy_cases (busy_iff.2 hbusy) with ⟨t, ht, hend⟩ | ⟨a, rest, hag, -⟩
    · exact ⟨1, le_rfl, t, run_succ_of_step ht 0, Or.inl hend⟩
    · simp [hag] at hlen
  | succ n ih =>
    rcases step_busy_cases (busy_iff.2 hbusy) with ⟨t, ht, hend⟩ | ⟨a, rest, hag, hf | ⟨t, ht, hrest⟩⟩
    · exact ⟨1, by omega, t, run_succ_of_step ht 0, Or.inl hend⟩
    · exact ⟨0, by omega, s, rfl, Or.inr ⟨a, rest, hag, hf⟩⟩
    · by_cases htb : t.status.state = .busy
      · have htlen : t.agenda.length = n := by simpa [hag, hrest] using hlen
        obtain ⟨k, hk, u, hu, hend⟩ := ih t htb htlen
        exact ⟨k + 1, by omega, u, (run_succ_of_step ht k).trans hu, hend⟩
      · exact ⟨1, by omega, t, run_succ_of_step ht 0, Or.inl htb⟩

end Sys2Proof.Machine
end
